-- ==== Sys2Proof/Word.lean ====
section
/-! DEFINITION. The two word types of the block: 32-bit register words and ticks, and bytes (00_scope.md R6). -/

namespace Sys2Proof

/-- A 32-bit register value, host address or tick (00_scope.md R6, 10_state.md R12, R29). -/
abbrev Word := BitVec 32

/-- A byte of host memory, of a display item or of a frame. -/
abbrev Byte := BitVec 8

end Sys2Proof
end

