-- ==== Sys2Proof/Machine/Event.lean ====
section
/-! DEFINITION. The steps the agents outside and inside the block can take (00_scope.md R8), as plain data:
what the schedule of a run is made of. -/

namespace Sys2Proof.Machine

/-- The width of a host access (20_memory.md R36). -/
inductive Width where
  | byte
  | half
  | word
deriving DecidableEq, Repr, Inhabited

/-- The two answers of the bus transport (10_state.md R29). -/
inductive BusResult where
  | ok
  | timeout
deriving DecidableEq, Repr, Inhabited

/-- One operation of a host program. `read` and `write` are RD and WR of 30_encoding.md R59 at any place, so that an access
R36 refuses can be written too. The place is the byte offset from BLOCK_BASE modulo 2^32, as 20_memory.md R34 addresses the
window (DESIGN CHOICE, safe: notes/assumptions/6.md). `waitIdle` is WAITIDLE, one poll of STATUS a step.
`poll last` is one pass of the reference loop of 43_host_interface.md R111 with `last` as its "last rendered" value. -/
inductive HostOp where
  | read (off : Word) (width : Width)
  | write (off : Word) (width : Width) (v : Word)
  | waitIdle
  | poll (last : Word)
deriving DecidableEq, Repr, Inhabited

/-- One step of one agent (00_scope.md R8). -/
inductive Event where
  /-- The host takes the next operation of its program. -/
  | host
  /-- The host decides on one more operation, which joins the end of its program. -/
  | issue (op : HostOp)
  /-- The host, or any other master, stores a byte to host memory (20_memory.md R46): an event of its own, outside the host's
  program (DESIGN CHOICE, safe: notes/assumptions/22.md). -/
  | store (a : Word) (b : Byte)
  /-- The DPE sequencer steps (41_display_driver.md R77, R79, R80, R88). -/
  | dpe
  /-- The DEC evaluates (42_edge_counter.md R93). -/
  | dec
  /-- A rising edge of BTN (42_edge_counter.md R91). -/
  | edge
  /-- The tick advances by `n` (10_state.md R29). -/
  | tick (n : Nat)
  /-- The bus transport returns (41_display_driver.md R78). -/
  | bus (r : BusResult)
  /-- The platform resets the block (70_reset_and_hazards.md R131). -/
  | reset
deriving DecidableEq, Repr, Inhabited

end Sys2Proof.Machine
end

