-- ==== Sys2Proof/Config.lean ====
section
/-! DEFINITION. What one instance of the block and its platform fix: the constants of 00_scope.md R5, and
the free values of the model, which have no body. -/

namespace Sys2Proof

namespace Config

/-- 42_edge_counter.md R95: an edge counts only if more ticks than this have passed. -/
def debounceMs : Nat := 40
/-- 7-bit bus target address (00_scope.md R5). -/
def busAddr7 : BitVec 7 := 0x27#7
/-- The address byte handed to the transport (00_scope.md R5, 20_memory.md R49). -/
def busAddrW : Byte := 0x4E#8
/-- Timeout handed to every transmit, in ms (00_scope.md R5). -/
def busTimeoutMs : Nat := 100
/-- Bus bytes per display byte (00_scope.md R5). -/
def frameLen : Nat := 4
/-- Minimum gap after a byte, in ms (00_scope.md R5). -/
def settleMs : Nat := 1
/-- Minimum gap after a clear, in ms (00_scope.md R5). -/
def clearMs : Nat := 2
/-- INIT's wait before its first byte, in ms (41_display_driver.md R76, R82). -/
def preWaitMs : Nat := 50
/-- Characters plus terminator the converter may produce (00_scope.md R5). -/
def intBufCap : Nat := 12

end Config

/-- What an increment of COUNT = 0x7FFFFFFF gives (00_scope.md R5, OPEN). -/
inductive CntOvf where
  | wrap
  | saturate
deriving DecidableEq, Repr, Inhabited

/-- A run of host addresses: `size` bytes from `base` on. -/
structure Region where
  base : Nat
  size : Nat
deriving DecidableEq, Repr, Inhabited

namespace Config

/-- Free: the upper 27 bits of the BLOCK_BASE of the instance that `State.reset` stands for (00_scope.md R5, OPEN).
DESIGN CHOICE, safe: notes/assumptions/6.md. -/
opaque windowNo : BitVec 27
/-- Free: the host addresses that instance's platform admits for MemRead (20_memory.md R40). DESIGN CHOICE, safe:
notes/assumptions/8.md. -/
opaque admitted : List Region
/-- Free: the BL_LEVEL of the instance that `State.reset` stands for. DESIGN CHOICE, safe: notes/assumptions/6.md. -/
opaque blLevel : BitVec 1
/-- Free: the CNT_OVF of the instance that `State.reset` stands for. DESIGN CHOICE, safe: notes/assumptions/6.md. -/
opaque cntOvf : CntOvf
/-- Free: the byte of host memory at an address to which nothing in the run has stored.
DESIGN CHOICE, safe: notes/assumptions/7.md. -/
opaque hostByte : Word → Byte
/-- Free: the step the agents take next where the state's schedule names none (00_scope.md R8: any enabled step of any
agent may be taken next). DESIGN CHOICE, safe: notes/assumptions/1.md. -/
opaque nextEvent : Nat → Machine.Event

end Config

end Sys2Proof
end

