-- ==== Sys2Proof/Syntax.lean ====
section
/-! DEFINITION. The seven commands of the block, one constructor per row of spec/opcode_table.json (30_encoding.md R51, R55). -/

namespace Sys2Proof

/-- A command, with the 8-bit fields of its word as operands (30_encoding.md R55).
The 32-bit operands of `wtext` and `wint` are not part of the word: they are ARG (R56). -/
inductive Instr where
  | init
  | clear
  | setcur (row col : Byte)
  | sendcmd (b : Byte)
  | senddata (b : Byte)
  | wtext
  | wint (base : Byte)
deriving DecidableEq, Repr

end Sys2Proof
end

