-- ==== Sys2Proof/Decode.lean ====
section
/-! DEFINITION. Reading a command word (30_encoding.md R50 to R54), and writing one (R58).
The word that decodes is a value written to CMD; there is no instruction memory (20_memory.md R34). -/

namespace Sys2Proof

/-- The codes a rejected command records (60_exceptions.md R113). -/
inductive CmdError where
  | reservedOpcode
  | reservedField
  | badBase
  | convUndefined
  | convOverflow
deriving DecidableEq, Repr

/-- ERRCODE of each (60_exceptions.md R113). -/
def CmdError.code : CmdError → BitVec 4
  | .reservedOpcode => 1
  | .reservedField  => 2
  | .badBase        => 3
  | .convUndefined  => 4
  | .convOverflow   => 5

/-- The opcodes of 30_encoding.md R51, by mnemonic. -/
inductive Opcode where
  | init
  | clear
  | setcur
  | sendcmd
  | senddata
  | wtext
  | wint
deriving DecidableEq, Repr

/-- The byte OP of each opcode (30_encoding.md R51). -/
def Opcode.code : Opcode → Byte
  | .init     => 0x01
  | .clear    => 0x02
  | .setcur   => 0x03
  | .sendcmd  => 0x04
  | .senddata => 0x05
  | .wtext    => 0x06
  | .wint     => 0x07

/-- The column `match` of 30_encoding.md R52. -/
def Opcode.matchWord : Opcode → Word
  | .init     => 0x00000001
  | .clear    => 0x00000002
  | .setcur   => 0x00000003
  | .sendcmd  => 0x00000004
  | .senddata => 0x00000005
  | .wtext    => 0x00000006
  | .wint     => 0x00000007

/-- The column `mask` of 30_encoding.md R52: 1 marks a bit that is checked. -/
def Opcode.mask : Opcode → Word
  | .init     => 0xFFFFFFFF
  | .clear    => 0xFFFFFFFF
  | .setcur   => 0xFF0000FF
  | .sendcmd  => 0xFFFF00FF
  | .senddata => 0xFFFF00FF
  | .wtext    => 0xFFFFFFFF
  | .wint     => 0xFFFF00FF

/-- The field OP, bits 7:0 (30_encoding.md R50). -/
def fieldOP (w : Word) : Byte := w.extractLsb' 0 8
/-- The field A, bits 15:8 (30_encoding.md R50). -/
def fieldA (w : Word) : Byte := w.extractLsb' 8 8
/-- The field B, bits 23:16 (30_encoding.md R50). -/
def fieldB (w : Word) : Byte := w.extractLsb' 16 8
/-- The field Z, bits 31:24 (30_encoding.md R50). -/
def fieldZ (w : Word) : Byte := w.extractLsb' 24 8

/-- The opcode a byte names; every byte outside 0x01 to 0x07 is reserved (30_encoding.md R53). -/
def opcodeOf (b : Byte) : Option Opcode :=
  match b.toNat with
  | 1 => some .init
  | 2 => some .clear
  | 3 => some .setcur
  | 4 => some .sendcmd
  | 5 => some .senddata
  | 6 => some .wtext
  | 7 => some .wint
  | _ => none

/-- The command of an opcode with the fields A and B (30_encoding.md R55). -/
def Opcode.withFields (op : Opcode) (a b : Byte) : Instr :=
  match op with
  | .init     => .init
  | .clear    => .clear
  | .setcur   => .setcur a b
  | .sendcmd  => .sendcmd a
  | .senddata => .senddata a
  | .wtext    => .wtext
  | .wint     => .wint a

/-- The opcode of a command. -/
def Instr.opcode : Instr → Opcode
  | .init       => .init
  | .clear      => .clear
  | .setcur _ _ => .setcur
  | .sendcmd _  => .sendcmd
  | .senddata _ => .senddata
  | .wtext      => .wtext
  | .wint _     => .wint

/-- The first two checks of 30_encoding.md R54, in its order: the opcode, then the must-be-zero fields.
The base and conversion checks of WINT stand in its meaning (DEDUCED: notes/assumptions/13.md). -/
def decode (w : Word) : Except CmdError Instr :=
  match opcodeOf (fieldOP w) with
  | none => .error .reservedOpcode
  | some op =>
    if w &&& op.mask = op.matchWord then .ok (op.withFields (fieldA w) (fieldB w))
    else .error .reservedField

/-- A word from its four fields, bits 7:0 first (30_encoding.md R50). -/
def packFields (op a b z : Byte) : Word := z ++ b ++ a ++ op

/-- The word of a command (30_encoding.md R58). -/
def encode : Instr → Word
  | .init           => packFields 0x01 0 0 0
  | .clear          => packFields 0x02 0 0 0
  | .setcur row col => packFields 0x03 row col 0
  | .sendcmd b      => packFields 0x04 b 0 0
  | .senddata b     => packFields 0x05 b 0 0
  | .wtext          => packFields 0x06 0 0 0
  | .wint base      => packFields 0x07 base 0 0

/-- The word whose low `nbits` bits are those of `w` and whose other bits are 0. -/
def tableWord (nbits w : Nat) : Word := BitVec.ofNat 32 (w % 2 ^ nbits)

/-- The command the decoder reads from a table row's bits; every command is one 32-bit word (30_encoding.md R57), so more
than 32 bits are no command. -/
def decodeTableWord (nbits w : Nat) : Option Instr :=
  if nbits ≤ 32 then
    match decode (tableWord nbits w) with
    | .ok i    => some i
    | .error _ => none
  else none

end Sys2Proof
end

