-- ==== Sys2Proof/Machine/State.lean ====
section
/-! DEFINITION. The state of the block and of the agents around it, as plain data (10_state.md; INVENTORY.md, State),
the reasons a step can stop, and the state right after reset (10_state.md R31). -/

namespace Sys2Proof.Machine

/-- The OPEN parameters of the block instance (00_scope.md R5) and the addresses its platform admits for MemRead
(20_memory.md R40). BLOCK_BASE is a multiple of 0x20 (R35), so its 27 upper bits are held. -/
structure Params where
  windowNo : BitVec 27
  blLevel  : BitVec 1
  cntOvf   : CntOvf
  admitted : List Region
deriving DecidableEq, Repr

/-- STATUS.STATE (10_state.md R16). -/
inductive DispState where
  | uninit
  | initializing
  | ready
deriving DecidableEq, Repr

/-- Where the DPE sequencer is (10_state.md R24). -/
inductive Phase where
  | idle
  | prewait
  | issue
  | xfer
  | wait
deriving DecidableEq, Repr

/-- One full display byte: the byte, its register-select bit and the minimum delay after it in ms (10_state.md R25). -/
structure Item where
  byte : Byte
  rs   : BitVec 1
  gap  : Nat
deriving DecidableEq, Repr

/-- The stored bits of STATUS (10_state.md R15 to R20). BUSY is not among them: it is read from the phase (R17). -/
structure Status where
  state   : DispState
  busto   : Bool
  cmdovr  : Bool
  cmderr  : Bool
  errcode : BitVec 4
deriving DecidableEq, Repr

/-- The sequencer of the display protocol engine (10_state.md R24). -/
structure Dpe where
  phase : Phase
  curop : Option Opcode
  q     : List Item
  txt   : Option Word
  argl  : Word
  t0    : Word
  dcur  : Nat
  frame : List Byte
deriving DecidableEq, Repr

/-- The debounce edge counter (10_state.md R21 to R23). -/
structure Dec where
  pend   : Bool
  count  : Word
  lastts : Word
deriving DecidableEq, Repr

/-- Host memory: (address, byte) pairs, addresses strictly rising. An unlisted address holds no byte the run has stored
(DESIGN CHOICE, safe: notes/assumptions/7.md). -/
abbrev Memory := List Host.Cell

/-- The host as the block meets it: its remaining program (30_encoding.md R59), what the window answered to its last
access (43_host_interface.md R101), and the accesses the window refused, newest first (20_memory.md R36). -/
structure HostSide where
  prog    : List HostOp
  rdata   : Option Word
  refused : List HostOp
deriving DecidableEq, Repr

/-- One bus transaction (10_state.md R28, 41_display_driver.md R72, R90), with the item it carries. `start` and `ret` are
clock values; `ret` is none while the transport has not returned. -/
structure Transaction where
  addr      : Byte
  frame     : List Byte
  len       : Nat
  timeoutMs : Nat
  item      : Item
  start     : Nat
  ret       : Option (Nat × BusResult)
deriving DecidableEq, Repr

/-- What is observed of the block, in order: its transactions (10_state.md R28), and the model's own marks of accepted
commands and resets among them (DESIGN CHOICE, safe: notes/assumptions/11.md). -/
inductive Obs where
  | accepted (i : Instr) (arg : Word) (clock : Nat)
  | tx (t : Transaction)
  | reset (clock : Nat)
deriving DecidableEq, Repr

/-- The machine. `params` is fixed for the instance; `arg`, `status`, `dpe` and `dec` are the block's; `host`, `mem`,
`clock` and `log` belong to the agents around it; `events` and `draws` say which agent moves next
(DESIGN CHOICE: notes/assumptions/1.md). `log` is newest first. -/
structure State where
  params : Params
  arg    : Word
  status : Status
  dpe    : Dpe
  dec    : Dec
  host   : HostSide
  mem    : Memory
  clock  : Nat
  log    : List Obs
  events : List Event
  draws  : Nat
deriving DecidableEq, Repr

/-- No step faults: the block never traps, and every error is recorded in STATUS (60_exceptions.md R112).
DEDUCED, safe: notes/assumptions/17.md. -/
inductive Fault where
deriving DecidableEq, Repr

/-- Why a step has no meaning. -/
inductive Refusal where
  /-- Raised by an arm of `exec` whose command has no meaning yet; safe. No arm raises it now. -/
  | notModelled (mnemonic : String)
deriving DecidableEq, Repr

/-- The sequencer at reset (10_state.md R31). -/
def Dpe.reset : Dpe :=
  { phase := .idle, curop := none, q := [], txt := none, argl := 0, t0 := 0, dcur := 0, frame := [] }

/-- The stored STATUS bits at reset (10_state.md R31). -/
def Status.reset : Status :=
  { state := .uninit, busto := false, cmdovr := false, cmderr := false, errcode := 0 }

/-- The edge counter at reset (10_state.md R31). -/
def Dec.reset : Dec := { pend := false, count := 0, lastts := 0 }

/-- The instance `State.reset` stands for: every parameter stays free (DESIGN CHOICE, safe: notes/assumptions/6.md,
notes/assumptions/8.md). -/
def Params.reset : Params :=
  { windowNo := Config.windowNo, blLevel := Config.blLevel, cntOvf := Config.cntOvf, admitted := Config.admitted }

/-- The host side before any access (DESIGN CHOICE: notes/assumptions/3.md, notes/assumptions/4.md). -/
def HostSide.reset : HostSide := { prog := [], rdata := none, refused := [] }

/-- The machine right after reset (10_state.md R31). The clock starts at 0 (DESIGN CHOICE, unsafe:
notes/assumptions/9.md), and nothing is scheduled, stored or observed. -/
def State.reset : State :=
  { params := Params.reset
    arg    := 0
    status := Status.reset
    dpe    := Dpe.reset
    dec    := Dec.reset
    host   := HostSide.reset
    mem    := []
    clock  := 0
    log    := []
    events := []
    draws  := 0 }

end Sys2Proof.Machine
end

