-- ==== Sys2Proof/Machine/Flags.lean ====
section
/-! DEFINITION. The flags of the block (10_state.md R33): the word STATUS reads as, and each way a flag changes. -/

namespace Sys2Proof.Machine

/-- The encoding of STATUS.STATE (10_state.md R16). -/
def DispState.code : DispState → BitVec 2
  | .uninit       => 0
  | .initializing => 1
  | .ready        => 2

/-- STATUS.BUSY: exactly when the phase is not IDLE (10_state.md R17). -/
def Dpe.busy (d : Dpe) : Bool := d.phase ≠ .idle

/-- A flag as a word bit. -/
def flagBit (b : Bool) : Word := if b then 1 else 0

/-- The word STATUS reads as (43_host_interface.md R101); reserved bits read 0 (10_state.md R32). -/
def statusWord (st : Status) (busy : Bool) : Word :=
  st.errcode.setWidth 32 <<< 8 ||| flagBit st.cmderr <<< 5 ||| flagBit st.cmdovr <<< 4 |||
    flagBit st.busto <<< 3 ||| flagBit busy <<< 2 ||| st.state.code.setWidth 32

/-- A host write to STATUS: 1 in bits 3, 4, 5 clears, everything else is ignored (43_host_interface.md R104). -/
def Status.writeOneToClear (st : Status) (v : Word) : Status :=
  { state   := st.state
    busto   := st.busto && !v.getLsbD 3
    cmdovr  := st.cmdovr && !v.getLsbD 4
    cmderr  := st.cmderr && !v.getLsbD 5
    errcode := if v.getLsbD 5 then 0 else st.errcode }

/-- Recording a rejection: the first code since CMDERR was last 0 is kept (60_exceptions.md R114, 10_state.md R20). -/
def Status.recordError (st : Status) (e : CmdError) : Status :=
  { st with cmderr := true, errcode := if st.cmderr then st.errcode else e.code }

/-- Recording an overrun (60_exceptions.md R115). -/
def Status.recordOverrun (st : Status) : Status := { st with cmdovr := true }

/-- Recording a transport's answer (41_display_driver.md R73, R78). -/
def Status.recordReturn (st : Status) (r : BusResult) : Status :=
  match r with
  | .ok      => st
  | .timeout => { st with busto := true }

/-- Recording the completion of a command: INIT leaves STATE at READY (41_display_driver.md R80, R83). -/
def Status.recordCompletion (st : Status) (op : Option Opcode) : Status :=
  match op with
  | some .init => { st with state := .ready }
  | _          => st

/-- The word EDGE reads as (43_host_interface.md R101, 10_state.md R22). -/
def edgeWord (pend : Bool) : Word := flagBit pend

end Sys2Proof.Machine
end

