-- ==== Sys2Proof/Machine/Operands.lean ====
section
/-! DEFINITION. The values the steps compute: frame bytes, gaps, items, the text of an integer, elapsed ticks and the
increment of COUNT. None of them reads or writes the machine. -/

namespace Sys2Proof.Machine

/-- The control bits of a frame byte: backlight, strobe, RW = 0, register-select (41_display_driver.md R68, R71). -/
def ctl (bl en rs : BitVec 1) : Byte :=
  (bl.setWidth 8 <<< 3) ||| (en.setWidth 8 <<< 2) ||| ((0#1).setWidth 8 <<< 1) ||| rs.setWidth 8

/-- The NibbleFrame of a display byte (41_display_driver.md R69). -/
def frameOf (bl : BitVec 1) (b : Byte) (rs : BitVec 1) : List Byte :=
  [ (b &&& 0xF0) ||| ctl bl 1 rs
  , (b &&& 0xF0) ||| ctl bl 0 rs
  , ((b <<< 4) &&& 0xF0) ||| ctl bl 1 rs
  , ((b <<< 4) &&& 0xF0) ||| ctl bl 0 rs ]

/-- The gap of a command byte (41_display_driver.md R74). -/
def cmdGap (b : Byte) : Nat :=
  if b = 0x01 ∨ b = 0x02 ∨ b = 0x03 then Config.clearMs else Config.settleMs

/-- A command byte with its own gap (41_display_driver.md R74, R86). -/
def cmdItem (b : Byte) : Item := { byte := b, rs := 0, gap := cmdGap b }

/-- A data byte (41_display_driver.md R74, R87). -/
def dataItem (b : Byte) : Item := { byte := b, rs := 1, gap := Config.settleMs }

/-- The nine items of INIT, with the gaps of its table (41_display_driver.md R82). -/
def initItems : List Item :=
  [ ⟨0x30, 0, 50⟩, ⟨0x30, 0, 5⟩, ⟨0x30, 0, 10⟩, ⟨0x20, 0, 10⟩, ⟨0x28, 0, 1⟩,
    ⟨0x08, 0, 2⟩, ⟨0x01, 0, 2⟩, ⟨0x06, 0, 1⟩, ⟨0x0C, 0, 1⟩ ]

/-- The one item of CLEAR (41_display_driver.md R84). -/
def clearItems : List Item := [⟨0x01, 0, Config.clearMs⟩]

/-- The command byte of SETCUR; a row other than 0 and 1 sends the column as it is (41_display_driver.md R85). -/
def setcurByte (row col : Byte) : Byte :=
  if row = 0 then 0x80 ||| col
  else if row = 1 then 0xC0 ||| col
  else col

/-- The ASCII byte of a digit 0 to 35 (40_int_to_text.md R64). -/
def digitByte (d : Nat) : Byte :=
  if d ≤ 9 then BitVec.ofNat 8 (0x30 + d) else BitVec.ofNat 8 (0x61 + (d - 10))

/-- The digits of `m` in base `base`, most significant first, before the digits `acc` (the loop of
40_int_to_text.md R61, at most `fuel` times round). -/
def digitsLoop : (fuel base m : Nat) → (acc : List Byte) → List Byte
  | 0, _, _, acc => acc
  | fuel + 1, base, m, acc =>
    if m = 0 then acc else digitsLoop fuel base (m / base) (digitByte (m % base) :: acc)

/-- The digits of a magnitude of at most 32 bits, "0" for 0 (40_int_to_text.md R61, R63). -/
def digits (base m : Nat) : List Byte :=
  if m = 0 then [0x30] else digitsLoop 32 base m []

/-- The Integer-to-text Converter, on the two's complement value of `n` and a base 2 to 36 (40_int_to_text.md R61). -/
def intToText (n : Word) (base : Nat) : Except CmdError (List Byte) :=
  if n.toInt < 0 ∧ base ≠ 10 then .error .convUndefined
  else
    let s := (if n.toInt < 0 then [0x2D#8] else []) ++ digits base n.toInt.natAbs
    if s.length + 1 > Config.intBufCap then .error .convOverflow else .ok s

/-- `u(t -_32 t0)`, the ticks from `t0` to `t` (42_edge_counter.md R94, 41_display_driver.md R75). -/
def ticksSince (t t0 : Word) : Nat := (t - t0).toNat

/-- A wait of `dcur` ms from tick `t0` is over at tick `t` (41_display_driver.md R75). -/
def waitOver (t t0 : Word) (dcur : Nat) : Bool := dcur + 1 ≤ ticksSince t t0

/-- The increment of COUNT (42_edge_counter.md R97). -/
def incCount (ovf : CntOvf) (c : Word) : Word :=
  if c = 0x7FFFFFFF then
    match ovf with
    | .wrap     => 0x80000000
    | .saturate => 0x7FFFFFFF
  else c + 1

end Sys2Proof.Machine
end

