-- ==== Sys2Proof/Machine/Ops.lean ====
section
/-! DEFINITION. The operations every step is built from: host memory, the tick, the register window, recording an error
(the block's only "exception", 60_exceptions.md R112), accepting a command, and reset. -/

namespace Sys2Proof.Machine

/-! ## Host memory -/

/-- The byte the run has stored at `a`, if any. -/
def Memory.lookup : Memory → Nat → Option Byte
  | [], _ => none
  | (k, b) :: m, a => if k = a then some b else Memory.lookup m a

/-- The memory after a store of `b` at `a`, in canonical form again. -/
def Memory.store : Memory → Nat → Byte → Memory
  | [], a, b => [(a, b)]
  | (k, c) :: m, a, b =>
    if a < k then (a, b) :: (k, c) :: m
    else if a = k then (a, b) :: m
    else (k, c) :: Memory.store m a b

/-- Every address of `m` is above `lo` and below 2^32, and they rise strictly. -/
def Memory.risingFrom (lo : Nat) : Memory → Bool
  | [] => true
  | (k, _) :: m => decide (lo ≤ k ∧ k < 2 ^ 32) && Memory.risingFrom (k + 1) m

/-- The canonical form: addresses of the 32-bit space, strictly rising. An unlisted address reads as no byte, so no entry
can say what an unlisted address says. -/
def Memory.wf (m : Memory) : Bool := Memory.risingFrom 0 m

/-- The platform answers a read of host address `a` (20_memory.md R40). -/
def Params.admits (p : Params) (a : Word) : Bool :=
  p.admitted.any fun r => decide (r.base ≤ a.toNat ∧ a.toNat < r.base + r.size)

/-- `MemRead(a, 1)` (20_memory.md R39): none where the platform does not admit `a` (R40); a byte nothing has stored is a
free value (DESIGN CHOICE, safe: notes/assumptions/7.md). An address inside the register window is one of host memory here
(DESIGN CHOICE, unsafe: notes/assumptions/21.md). -/
def memRead (s : State) (a : Word) : Option Byte :=
  if s.params.admits a then some ((s.mem.lookup a.toNat).getD (Config.hostByte a)) else none

/-- A store to host memory by its owner (20_memory.md R46). An address inside the register window is one of host memory here
(DESIGN CHOICE, unsafe: notes/assumptions/21.md). -/
def storeByte (s : State) (a : Word) (b : Byte) : State :=
  { s with mem := s.mem.store a.toNat b }

/-! ## The window's place -/

/-- BLOCK_BASE, the host address of the register window (20_memory.md R35). -/
def Params.blockBase (p : Params) : Word := p.windowNo ++ 0#5

/-- The byte offset of host address `addr` from BLOCK_BASE, modulo 2^32 (20_memory.md R34). -/
def Params.offsetOf (p : Params) (addr : Word) : Word := addr - p.blockBase

/-! ## The tick -/

/-- `Now()`: the 32-bit tick (00_scope.md R7, 10_state.md R29). -/
def State.now (s : State) : Word := BitVec.ofNat 32 s.clock

/-- The tick advances by `n` (10_state.md R29). -/
def advance (s : State) (n : Nat) : State := { s with clock := s.clock + n }

/-! ## Observation -/

/-- One more observation (10_state.md R28). -/
def observe (s : State) (o : Obs) : State := { s with log := o :: s.log }

/-- The newest observation, if it is a transaction, gets its return (10_state.md R28). -/
def recordTxReturn (log : List Obs) (clock : Nat) (r : BusResult) : List Obs :=
  match log with
  | .tx t :: rest => .tx { t with ret := some (clock, r) } :: rest
  | l             => l

/-! ## Errors of a CMD write -/

/-- `raise CmdError(e)`: STATUS records it and nothing else changes (60_exceptions.md R114). This is the block's one way
to take an error; a host write to STATUS undoes it (`clearErrors`). -/
def raiseCmdError (e : CmdError) (s : State) : State := { s with status := s.status.recordError e }

/-- A CMD write while BUSY = 1 only sets CMDOVR (60_exceptions.md R115). -/
def overrun (s : State) : State := { s with status := s.status.recordOverrun }

/-- The host's write-1-to-clear of STATUS (43_host_interface.md R104). -/
def clearErrors (s : State) (v : Word) : State := { s with status := s.status.writeOneToClear v }

/-! ## Accepting a command -/

/-- The accept of a command other than INIT: ARG is latched, and the sequencer goes to ISSUE with the command's items and
text source (41_display_driver.md R76). -/
def accept (i : Instr) (q : List Item) (txt : Option Word) (s : State) : State :=
  observe
    { s with dpe := { s.dpe with
        argl := s.arg, curop := some i.opcode, q := q, txt := txt, phase := .issue } }
    (.accepted i s.arg s.clock)

/-- The accept of INIT: STATE becomes INITIALIZING and the sequencer waits before its first item
(41_display_driver.md R76, R83). -/
def acceptInit (q : List Item) (s : State) : State :=
  observe
    { s with
      status := { s.status with state := .initializing }
      dpe := { s.dpe with
        argl := s.arg, curop := some .init, q := q, txt := none,
        t0 := s.now, dcur := Config.preWaitMs, phase := .prewait } }
    (.accepted .init s.arg s.clock)

/-- What a command offered to the sequencer does: nothing but CMDOVR while BUSY = 1, else `take`
(41_display_driver.md R76). -/
def offer (take : State → State) (s : State) : Host.Outcome State Fault Refusal :=
  .next (if s.dpe.busy then overrun s else take s)

/-! ## Reset -/

/-- The reset step: every piece of the block's state takes its value of 10_state.md R31 (70_reset_and_hazards.md R131).
The instance's parameters, the tick, host memory, the host's program and the schedule are not the block's
(DEDUCED: notes/assumptions/12.md); a transaction in flight is abandoned (R132). -/
def resetBlock (s : State) : State :=
  observe { s with arg := 0, status := Status.reset, dpe := Dpe.reset, dec := Dec.reset } (.reset s.clock)

end Sys2Proof.Machine
end

