-- ==== Sys2Proof/Machine/EdgeCounter.lean ====
section
/-! DEFINITION. The steps of the debounce edge counter (42_edge_counter.md). -/

namespace Sys2Proof.Machine

/-- The edge step; an edge while PEND = 1 is merged (42_edge_counter.md R91). -/
def edgeStep (s : State) : State := { s with dec := { s.dec with pend := true } }

/-- The edge counter after an evaluation at tick `t` (42_edge_counter.md R93 to R97). -/
def Dec.evaluate (ovf : CntOvf) (t : Word) (d : Dec) : Dec :=
  { pend   := false
    count  := if ticksSince t d.lastts > Config.debounceMs then incCount ovf d.count else d.count
    lastts := t }

/-- The evaluation step, enabled exactly at PEND = 1 (42_edge_counter.md R92, R99). -/
def decStep (s : State) : State :=
  if s.dec.pend then { s with dec := s.dec.evaluate s.params.cntOvf s.now } else s

end Sys2Proof.Machine
end

