-- ==== Sys2Proof/Machine/Display.lean ====
section
/-! DEFINITION. The meanings of the commands whose items are fixed by the command word: INIT, CLEAR, SETCUR, SENDCMD,
SENDDATA (41_display_driver.md R82 to R87). Each is the accept step of R76; the sequencer sends the items. -/

namespace Sys2Proof.Machine

/-- INIT (41_display_driver.md R82, R83). -/
def execInit (s : State) : Host.Outcome State Fault Refusal :=
  offer (acceptInit initItems) s

/-- CLEAR (41_display_driver.md R84). -/
def execClear (s : State) : Host.Outcome State Fault Refusal :=
  offer (accept .clear clearItems none) s

/-- SETCUR row, col (41_display_driver.md R85). -/
def execSetcur (row col : Byte) (s : State) : Host.Outcome State Fault Refusal :=
  offer (accept (.setcur row col) [cmdItem (setcurByte row col)] none) s

/-- SENDCMD b (41_display_driver.md R86). -/
def execSendcmd (b : Byte) (s : State) : Host.Outcome State Fault Refusal :=
  offer (accept (.sendcmd b) [cmdItem b] none) s

/-- SENDDATA b (41_display_driver.md R87). -/
def execSenddata (b : Byte) (s : State) : Host.Outcome State Fault Refusal :=
  offer (accept (.senddata b) [dataItem b] none) s

end Sys2Proof.Machine
end

