-- ==== Sys2Proof/WellFormed.lean ====
section
/-! DEFINITION. Which commands are well formed: the operand ranges the spec gives (30_encoding.md R54, R55). -/

namespace Sys2Proof

/-- The bases WINT takes, 2 to 36 (40_int_to_text.md R62). -/
def baseInRange (base : Byte) : Bool := decide (2 ≤ base.toNat ∧ base.toNat ≤ 36)

/-- The 8-bit fields admit every value, but for WINT's base (30_encoding.md R54, third check). -/
def Instr.wellFormed : Instr → Bool
  | .init => true
  | .clear => true
  | .setcur _ _ => true
  | .sendcmd _ => true
  | .senddata _ => true
  | .wtext => true
  | .wint base => baseInRange base

end Sys2Proof
end

