-- ==== Sys2Proof/Machine/Text.lean ====
section
/-! DEFINITION. The meanings of the commands whose operand is ARG: WTEXT and WINT (41_display_driver.md R88, R89). -/

namespace Sys2Proof.Machine

/-- WTEXT: the text is read later, byte by byte, from the address in ARG (41_display_driver.md R88). -/
def execWtext (s : State) : Host.Outcome State Fault Refusal :=
  offer (fun s => accept .wtext [] (some s.arg) s) s

/-- WINT base: the whole conversion happens at accept, after the base check (41_display_driver.md R89,
30_encoding.md R54). A negative value in a base other than 10 is rejected with code 4, as 40_int_to_text.md R66 says
(DEDUCED, unsafe: notes/assumptions/10.md). -/
def execWint (base : Byte) (s : State) : Host.Outcome State Fault Refusal :=
  offer (fun s =>
    if baseInRange base then
      match intToText s.arg base.toNat with
      | .error e => raiseCmdError e s
      | .ok text => accept (.wint base) (text.map dataItem) none s
    else raiseCmdError .badBase s) s

end Sys2Proof.Machine
end

