-- ==== Sys2Proof/Machine/Dispatch.lean ====
section
/-! DEFINITION. The one dispatch of a command to its meaning. -/

namespace Sys2Proof.Machine

def exec (i : Instr) (s : State) : Host.Outcome State Fault Refusal :=
  match i with
  | .init => Sys2Proof.Machine.execInit s
  | .clear => Sys2Proof.Machine.execClear s
  | .setcur row col => Sys2Proof.Machine.execSetcur row col s
  | .sendcmd b => Sys2Proof.Machine.execSendcmd b s
  | .senddata b => Sys2Proof.Machine.execSenddata b s
  | .wtext => Sys2Proof.Machine.execWtext s
  | .wint base => Sys2Proof.Machine.execWint base s

end Sys2Proof.Machine
end

