-- ==== Sys2Proof/Machine/HostAccess.lean ====
section
/-! DEFINITION. The host's accesses of the register window (43_host_interface.md R101 to R106, 20_memory.md R35 to R37),
and the host programs of 30_encoding.md R60 and 43_host_interface.md R111. -/

namespace Sys2Proof.Machine

/-- The word slots of the window (10_state.md R12). -/
inductive Slot where
  | cmd
  | arg
  | status
  | count
  | edge
  | reserved
deriving DecidableEq, Repr

/-- The slot at word number `k` of the window (10_state.md R12). -/
def slotAt (k : BitVec 3) : Slot :=
  match k.toNat with
  | 0 => .cmd
  | 1 => .arg
  | 2 => .status
  | 3 => .count
  | 4 => .edge
  | _ => .reserved

/-- What the window makes of an access. -/
inductive Target where
  /-- A 32-bit access of a slot. -/
  | slot (s : Slot)
  /-- Narrow or misaligned: refused (20_memory.md R36). -/
  | notAdmitted
  /-- Beginning outside the window: no access of this block (DESIGN CHOICE: notes/assumptions/5.md). -/
  | elsewhere
deriving DecidableEq, Repr

/-- Where an access of `width` at byte offset `off` from BLOCK_BASE goes: offsets 0x00 to 0x1F are the window
(20_memory.md R34 to R36). The place of its first byte decides: an access that begins below the window and reaches into it
goes elsewhere (DESIGN CHOICE: notes/assumptions/5.md). -/
def target (off : Word) (width : Width) : Target :=
  if off.extractLsb' 5 27 = 0#27 then
    if width = .word ∧ off.extractLsb' 0 2 = 0#2 then .slot (slotAt (off.extractLsb' 2 3)) else .notAdmitted
  else .elsewhere

/-- The byte offset of word slot `k` (20_memory.md R35). -/
def slotOffset (k : BitVec 3) : Word := k.setWidth 32 * 4

/-- The byte address of word slot `k` (20_memory.md R35). -/
def Params.slotAddr (p : Params) (k : BitVec 3) : Word := p.blockBase + slotOffset k

/-- The word a slot reads as (43_host_interface.md R101, R106; 20_memory.md R37). -/
def readSlot (s : State) : Slot → Word
  | .cmd      => 0
  | .arg      => s.arg
  | .status   => statusWord s.status s.dpe.busy
  | .count    => s.dec.count
  | .edge     => edgeWord s.dec.pend
  | .reserved => 0

/-- The host gets `v` as the answer to its access. -/
def answer (s : State) (v : Option Word) : State := { s with host := { s.host with rdata := v } }

/-- A refused access is recorded and changes no block state (20_memory.md R36; DEDUCED: notes/assumptions/4.md). -/
def refuseAccess (s : State) (op : HostOp) : State :=
  { s with host := { s.host with refused := op :: s.host.refused } }

/-- A read (43_host_interface.md R101); a refused read returns no value (20_memory.md R36). -/
def hostRead (off : Word) (width : Width) (s : State) : State :=
  match target off width with
  | .slot k      => answer s (some (readSlot s k))
  | .notAdmitted => answer (refuseAccess s (.read off width)) none
  | .elsewhere   => answer s none

/-- A write to CMD: the accept step, taken in the same step as the write (43_host_interface.md R102,
41_display_driver.md R76). A word written while BUSY = 1 is not decoded (60_exceptions.md R115). -/
def writeCmd (w : Word) (s : State) : Host.Outcome State Fault Refusal :=
  if s.dpe.busy then .next (overrun s)
  else
    match decode w with
    | .error e => .next (raiseCmdError e s)
    | .ok i    => exec i s

/-- A write to a slot (43_host_interface.md R102 to R105, 20_memory.md R41). -/
def writeSlot (k : Slot) (v : Word) (s : State) : Host.Outcome State Fault Refusal :=
  match k with
  | .cmd      => writeCmd v s
  | .arg      => .next { s with arg := v }
  | .status   => .next (clearErrors s v)
  | .count    => .next s
  | .edge     => .next s
  | .reserved => .next s

/-- A write (20_memory.md R36, R41). -/
def hostWrite (off : Word) (width : Width) (v : Word) (s : State) : Host.Outcome State Fault Refusal :=
  match target off width with
  | .slot k      => writeSlot k v s
  | .notAdmitted => .next (refuseAccess s (.write off width v))
  | .elsewhere   => .next s

/-! ## Host programs -/

/-- WR of a slot, as an access (30_encoding.md R59). -/
def HostOp.wr (k : BitVec 3) (v : Word) : HostOp := .write (slotOffset k) .word v

/-- The pseudo-instructions of 30_encoding.md R60. -/
inductive Pseudo where
  | wchar (b : Byte)
  | cursor (row col : Byte)
  | puts (addr : Word)
  | puti (v : Word)
  | lcdinit
  | clrerr
deriving DecidableEq, Repr

/-- Their expansions (30_encoding.md R60). -/
def Pseudo.expand : Pseudo → List HostOp
  | .wchar b        => [.waitIdle, .wr 0 (encode (.senddata b))]
  | .cursor row col => [.waitIdle, .wr 0 (encode (.setcur row col))]
  | .puts addr      => [.waitIdle, .wr 1 addr, .wr 0 (encode .wtext)]
  | .puti v         => [.waitIdle, .wr 1 v, .wr 0 (encode (.wint 10))]
  | .lcdinit        => [.waitIdle, .wr 0 (encode .init), .waitIdle]
  | .clrerr         => [.wr 2 0x00000038]

/-- The host's remaining program becomes `ops` and then what was left of it. -/
def prepend (ops : List HostOp) (s : State) : State :=
  { s with host := { s.host with prog := ops ++ s.host.prog } }

/-- The host reference program (43_host_interface.md R111). -/
def referenceProgram : List HostOp := Pseudo.expand .lcdinit ++ [.poll 0]

/-- What a pass of the reference loop does after it has read `c` (43_host_interface.md R111). -/
def renderOps (last c : Word) : List HostOp :=
  if c = last then [.poll last]
  else Pseudo.expand (.cursor 0 0) ++ Pseudo.expand (.puti c) ++ [.poll c]

/-- One host operation, already taken off the program (30_encoding.md R59, 43_host_interface.md R111). -/
def runHostOp (op : HostOp) (s : State) : Host.Outcome State Fault Refusal :=
  match op with
  | .read off width    => .next (hostRead off width s)
  | .write off width v => hostWrite off width v s
  | .waitIdle          =>
    let t := answer s (some (readSlot s .status))
    .next (if (readSlot s .status).getLsbD 2 then prepend [.waitIdle] t else t)
  | .poll last         =>
    .next (prepend (renderOps last (readSlot s .count)) (answer s (some (readSlot s .count))))

/-- The host's step: the next operation of its program, if there is one (43_host_interface.md R110). -/
def hostStep (s : State) : Host.Outcome State Fault Refusal :=
  match s.host.prog with
  | []        => .next s
  | op :: ops => runHostOp op { s with host := { s.host with prog := ops } }

/-- The host decides on one more operation. -/
def issueOp (op : HostOp) (s : State) : State :=
  { s with host := { s.host with prog := s.host.prog ++ [op] } }

end Sys2Proof.Machine
end

