-- ==== Sys2Proof/Machine/Sequencer.lean ====
section
/-! DEFINITION. The steps of the DPE sequencer and of the bus transport it waits for (41_display_driver.md R77 to R80,
and the text step of R88). Where a step is not enabled the state stays as it is
(DESIGN CHOICE, safe: notes/assumptions/15.md). -/

namespace Sys2Proof.Machine

/-- The transaction that carries an item (41_display_driver.md R72). -/
def transactionOf (s : State) (it : Item) : Transaction :=
  { addr := Config.busAddrW, frame := frameOf s.params.blLevel it.byte it.rs, len := Config.frameLen,
    timeoutMs := Config.busTimeoutMs, item := it, start := s.clock, ret := none }

/-- The issue step, for the head item `it` (41_display_driver.md R77). -/
def issueItem (it : Item) (s : State) : State :=
  observe { s with dpe := { s.dpe with frame := frameOf s.params.blLevel it.byte it.rs, phase := .xfer } }
    (.tx (transactionOf s it))

/-- The text step, with the text pointer at `a` (41_display_driver.md R88); a read the platform does not admit is no step
(20_memory.md R40). -/
def textStep (a : Word) (s : State) : State :=
  match memRead s a with
  | none   => s
  | some c =>
    if c = 0 then { s with dpe := { s.dpe with txt := none } }
    else { s with dpe := { s.dpe with q := [dataItem c], txt := some (a + 1) } }

/-- The completion step (41_display_driver.md R80, R83). -/
def complete (s : State) : State :=
  { s with
    status := s.status.recordCompletion s.dpe.curop
    dpe := { s.dpe with curop := none, phase := .idle } }

/-- The wait step (41_display_driver.md R79, R75). -/
def waitStep (s : State) : State :=
  if waitOver s.now s.dpe.t0 s.dpe.dcur then { s with dpe := { s.dpe with phase := .issue } } else s

/-- The one DPE step that is enabled, if any (41_display_driver.md R77, R79, R80, R88). -/
def dpeStep (s : State) : State :=
  match s.dpe.phase with
  | .idle    => s
  | .xfer    => s
  | .prewait => waitStep s
  | .wait    => waitStep s
  | .issue   =>
    match s.dpe.q, s.dpe.txt with
    | it :: _, _      => issueItem it s
    | [],      some a => textStep a s
    | [],      none   => complete s

/-- The return step of the transport (41_display_driver.md R78); outside phase XFER a return is ignored
(70_reset_and_hazards.md R132, notes/assumptions/14.md). -/
def busReturn (r : BusResult) (s : State) : State :=
  match s.dpe.phase, s.dpe.q with
  | .xfer, it :: rest =>
    { s with
      status := s.status.recordReturn r
      dpe := { s.dpe with q := rest, t0 := s.now, dcur := it.gap, phase := .wait }
      log := recordTxReturn s.log s.clock r }
  | _, _ => s

end Sys2Proof.Machine
end

