-- ==== Sys2Proof/Machine/Agents.lean ====
section
/-! DEFINITION. Which agent moves next and what its step does (00_scope.md R8, 20_memory.md R43). -/

namespace Sys2Proof.Machine

/-- The next event: the head of the schedule, or a free one where the schedule names none
(DESIGN CHOICE, safe: notes/assumptions/1.md). -/
def State.nextEvent (s : State) : Event :=
  match s.events with
  | []     => Config.nextEvent s.draws
  | e :: _ => e

/-- The state with its next event taken off. -/
def State.takeEvent (s : State) : State :=
  match s.events with
  | []      => { s with draws := s.draws + 1 }
  | _ :: es => { s with events := es }

/-- The step of the agent that moves. A store is an event of its own (DESIGN CHOICE, safe: notes/assumptions/22.md). -/
def eventStep (e : Event) (s : State) : Host.Outcome State Fault Refusal :=
  match e with
  | .host      => hostStep s
  | .issue op  => .next (issueOp op s)
  | .store a b => .next (storeByte s a b)
  | .dpe       => .next (dpeStep s)
  | .dec       => .next (decStep s)
  | .edge      => .next (edgeStep s)
  | .tick n    => .next (advance s n)
  | .bus r     => .next (busReturn r s)
  | .reset     => .next (resetBlock s)

/-- The host's next operation is a write of `w` to CMD, and the host is the next agent to move. -/
def offerWord (s : State) (w : Word) : State :=
  { s with
    events := .host :: s.events
    host := { s.host with prog := .wr 0 w :: s.host.prog } }

end Sys2Proof.Machine
end

