-- ==== Sys2Proof/Machine/Step.lean ====
section
/-! DEFINITION. One step of the machine: one atomic step of one agent (00_scope.md R8). -/

namespace Sys2Proof.Machine

/-- One step: the next agent moves. -/
def step (s : State) : Host.Outcome State Fault Refusal := eventStep s.nextEvent s.takeEvent

/-- The host's very next step writes the table word to CMD (notes/assumptions/2.md). -/
def State.withFetchWord (s : State) (nbits w : Nat) : State := offerWord s (tableWord nbits w)

end Sys2Proof.Machine
end

