-- ==== Sys2Proof/Safety.lean ====
section
/-! DEFINITION. What a safe state of the machine is: the invariant that claims about every step are stated in, the
observation it keeps correct (41_display_driver.md R90), and the two ways a run can rest (43_host_interface.md R110,
60_exceptions.md R117). -/

namespace Sys2Proof.Machine

/-! ## Words for steps -/

/-- The state in which the host takes an operation of its program: the event and the operation are taken off. -/
def State.popped (s : State) (ops : List HostOp) : State :=
  { s.takeEvent with host := { s.host with prog := ops } }

/-- The state with the events `es` scheduled before all others. -/
def State.scheduled (s : State) (es : List Event) : State := { s with events := es ++ s.events }

/-- The host's next operation is a 32-bit write of `v` to the slot `k`, with `ops` after it. -/
def State.writesNext (s : State) (k : Slot) (v : Word) (ops : List HostOp) : Prop :=
  ∃ off, s.host.prog = .write off .word v :: ops ∧ target off .word = .slot k

/-! ## Runs -/

/-- `r` is a run in which the agents move in the order `sched`; any order is a run (00_scope.md R8,
60_exceptions.md R119). -/
def IsRun (sched : Nat → Event) (r : Nat → State) : Prop := ∀ n, eventStep (sched n) (r n) = .next (r (n + 1))

/-- The fairness assumption of 42_edge_counter.md R92: an enabled evaluation is eventually taken, unless a reset disables it
first (DEDUCED, safe: notes/assumptions/23.md). -/
def FairToEvaluation (sched : Nat → Event) (r : Nat → State) : Prop :=
  ∀ n, (r n).dec.pend = true → ∃ m, n ≤ m ∧ (sched m = .dec ∨ sched m = .reset)

/-! ## What a command sends -/

/-- The items a command sends, but for WTEXT, whose items are read from host memory later
(41_display_driver.md R82 to R89). -/
def commandItems (i : Instr) (arg : Word) : List Item :=
  match i with
  | .init           => initItems
  | .clear          => clearItems
  | .setcur row col => [cmdItem (setcurByte row col)]
  | .sendcmd b      => [cmdItem b]
  | .senddata b     => [dataItem b]
  | .wtext          => []
  | .wint base      =>
    match intToText arg base.toNat with
    | .ok text => text.map dataItem
    | .error _ => []

/-- An item of a text: a data byte other than the terminator (41_display_driver.md R88). -/
def Item.isText (it : Item) : Prop := it = dataItem it.byte ∧ it.byte ≠ 0

/-- `items` are those of the accepted command: exactly its own, or for WTEXT a text (41_display_driver.md R90). -/
def CommandSends (i : Instr) (arg : Word) (items : List Item) : Prop :=
  match i with
  | .wtext => ∀ it ∈ items, it.isText
  | _      => items = commandItems i arg

/-! ## The observation, newest first -/

/-- The command accepted last, since the last reset. -/
def lastAccepted : List Obs → Option (Instr × Word × Nat)
  | []                     => none
  | .accepted i arg c :: _ => some (i, arg, c)
  | .tx _ :: log           => lastAccepted log
  | .reset _ :: _          => none

/-- The items sent since the last accept or reset, in the order they were sent. -/
def sentSince : List Obs → List Item
  | []                   => []
  | .accepted _ _ _ :: _ => []
  | .tx t :: log         => sentSince log ++ [t.item]
  | .reset _ :: _        => []

/-- The first clock value at which a transmit may start: none while a transaction is in flight, else one more tick than
the gap after the last return, or than INIT's pre-wait (41_display_driver.md R74, R75, R82, R90). -/
def restedBy : List Obs → Option Nat
  | []                   => some 0
  | .accepted i _ c :: _ => some (if i = .init then c + (Config.preWaitMs + 1) else c)
  | .tx t :: _           => t.ret.map fun r => r.1 + (t.item.gap + 1)
  | .reset c :: _        => some c

/-- The last accepted command has sent all it sends. -/
def SentAll (log : List Obs) : Prop :=
  ∀ i arg c, lastAccepted log = some (i, arg, c) → CommandSends i arg (sentSince log)

/-- `log` has rested by clock `c`: nothing is in flight and the last gap is over. -/
def RestedAt (log : List Obs) (c : Nat) : Prop := ∃ r, restedBy log = some r ∧ r ≤ c

/-- A transaction as 41_display_driver.md R72 and R74 describe it. -/
structure Transaction.WellSent (bl : BitVec 1) (t : Transaction) : Prop where
  addr    : t.addr = Config.busAddrW
  len     : t.len = Config.frameLen
  timeout : t.timeoutMs = Config.busTimeoutMs
  frame   : t.frame = frameOf bl t.item.byte t.item.rs
  gap     : Config.settleMs ≤ t.item.gap
  order   : ∀ c r, t.ret = some (c, r) → t.start ≤ c

/-- The observation is one R90 allows: every transaction is well sent and starts after the rest before it, and every
command is accepted when the one before it has sent all and rested. -/
def LogOk (bl : BitVec 1) : List Obs → Prop
  | []                     => True
  | .accepted _ _ c :: log => RestedAt log c ∧ SentAll log ∧ LogOk bl log
  | .tx t :: log           => t.WellSent bl ∧ RestedAt log t.start ∧ LogOk bl log
  | .reset _ :: log        => LogOk bl log

/-! ## The invariant -/

/-- The items of `q` not yet handed to the transport: during a transaction the head of `q` is already on the bus. -/
def Dpe.unsent (d : Dpe) : List Item :=
  match d.phase with
  | .xfer => d.q.tail
  | _     => d.q

/-- What the phase says of the newest observation and of the wait in progress (10_state.md R24). -/
def PhaseOk (d : Dpe) (clock : Nat) (log : List Obs) : Prop :=
  match d.phase with
  | .idle    => RestedAt log clock ∧ d.curop = none ∧ d.q = [] ∧ d.txt = none
  | .issue   => RestedAt log clock
  | .prewait => ∃ arg c rest, log = .accepted .init arg c :: rest ∧
      d.t0 = BitVec.ofNat 32 c ∧ d.dcur = Config.preWaitMs ∧ c ≤ clock
  | .xfer    => ∃ t rest, log = .tx t :: rest ∧
      t.ret = none ∧ d.q.head? = some t.item ∧ d.frame = t.frame ∧ t.start ≤ clock
  | .wait    => ∃ t rest c r, log = .tx t :: rest ∧
      t.ret = some (c, r) ∧ d.t0 = BitVec.ofNat 32 c ∧ d.dcur = t.item.gap ∧ c ≤ clock

/-- The states a run can be in, as far as claims need them ruled out. -/
structure State.Inv (s : State) : Prop where
  /-- Host memory is in canonical form. -/
  mem : s.mem.wf = true
  /-- ERRCODE is 0 exactly while CMDERR is 0, and never above 5 (10_state.md R20, 60_exceptions.md R113). -/
  err : (s.status.cmderr = false ↔ s.status.errcode = 0) ∧ s.status.errcode.toNat ≤ 5
  /-- STATE is INITIALIZING exactly while INIT is in progress (41_display_driver.md R83). -/
  disp : s.status.state = .initializing ↔ s.dpe.curop = some .init
  /-- The item list never holds more than 11 items (10_state.md R24), each with a gap (41_display_driver.md R74). -/
  queue : s.dpe.q.length ≤ 11 ∧ ∀ it ∈ s.dpe.q, Config.settleMs ≤ it.gap
  /-- Only WTEXT has a text pointer, at the next address of its text (20_memory.md R39). -/
  text : ∀ p, s.dpe.txt = some p → s.dpe.curop = some .wtext ∧ s.dpe.q.length ≤ 1 ∧
    p = s.dpe.argl + BitVec.ofNat 32 (sentSince s.log ++ s.dpe.unsent).length
  /-- While BUSY = 1 the command in progress is the one accepted last, with ARG as it was then (10_state.md R14). -/
  current : s.dpe.phase ≠ .idle →
    ∃ i c, lastAccepted s.log = some (i, s.dpe.argl, c) ∧ s.dpe.curop = some i.opcode
  /-- What is sent and what is still to send are the items of the command accepted last. -/
  progress : ∀ i arg c, lastAccepted s.log = some (i, arg, c) →
    CommandSends i arg (sentSince s.log ++ s.dpe.unsent)
  phase : PhaseOk s.dpe s.clock s.log
  log : LogOk s.params.blLevel s.log

/-! ## How a run rests -/

/-- A run is over (43_host_interface.md R110). Nothing is in flight while the phase is IDLE: a transaction that a reset has
abandoned (70_reset_and_hazards.md R132) does not count, though its return may still come (DEDUCED, unsafe:
notes/assumptions/24.md). -/
def State.runOver (s : State) : Prop :=
  s.host.prog = [] ∧ s.dpe.phase = .idle ∧ s.dec.pend = false

/-- The DPE waits for good for a text byte the platform does not admit (20_memory.md R40, 60_exceptions.md R117). -/
def State.textStuck (s : State) : Prop :=
  s.dpe.phase = .issue ∧ s.dpe.q = [] ∧ ∃ a, s.dpe.txt = some a ∧ s.params.admits a = false

/-- The block's own observable transactions, oldest first (10_state.md R28). -/
def State.transactions (s : State) : List Transaction :=
  s.log.reverse.filterMap fun o => match o with
    | .tx t => some t
    | _     => none

end Sys2Proof.Machine
end

