-- ==== Sys2Proof/Certificates/Slice0/Obligations.lean ====
section
/-! DEFINITION. The statements for the provers: what the numbered rules of spec/ say of this machine. -/

/-! ## Words the statements use -/

namespace Sys2Proof.Machine

/-- Events of the DPE, the tick and a bus that answers `ok`. -/
def Event.isDisplayWork : Event → Bool
  | .dpe    => true
  | .tick _ => true
  | .bus r  => r = .ok
  | _       => false

/-- The number a digit stands for (40_int_to_text.md R64). -/
def digitValue (b : Byte) : Nat := if b.toNat ≤ 0x39 then b.toNat - 0x30 else b.toNat - 0x61 + 10

/-- The number a digit sequence stands for, most significant digit first. -/
def digitsValue (base : Nat) (text : List Byte) : Nat := text.foldl (fun v b => v * base + digitValue b) 0

/-- The number a text stands for, with a leading '-' meaning negation (95_test_vectors.md P1). -/
def textValue (base : Nat) (text : List Byte) : Int :=
  if text.head? = some 0x2D#8 then - (digitsValue base text.tail : Int) else (digitsValue base text : Int)

/-- The ticks a command spends waiting at least, for the items it sent (70_reset_and_hazards.md R143). -/
def leastWait (i : Instr) (items : List Item) : Nat :=
  (if i = .init then Config.preWaitMs + 1 else 0) + (items.map fun it => it.gap + 1).sum

/-- Every CMD write of the program comes after a WAITIDLE with no other CMD write between; `idle` says whether BUSY is
known to be 0 at its start (30_encoding.md R60). -/
def guarded : Bool → List HostOp → Bool
  | _, [] => true
  | idle, .read _ _ :: ops => guarded idle ops
  | idle, .write off width _ :: ops =>
    if target off width = .slot .cmd then idle && guarded false ops else guarded idle ops
  | _, .waitIdle :: ops => guarded true ops
  | _, .poll _ :: ops => guarded false ops

/-- The schedule of one bounce train: each edge is evaluated `gap` ticks after the evaluation before it. -/
def edgeTrain (gaps : List Nat) : List Event := gaps.flatMap fun gap => [.tick gap, .edge, .dec]

end Sys2Proof.Machine

open Sys2Proof Sys2Proof.Machine

/-! ## Encoding -/

/-- Decoding and encoding are inverse: a word decodes to a command exactly when it is that command's word
(30_encoding.md R50 to R55). -/
def Obligations.DecodeInvertsEncode : Prop :=
  ∀ (w : Word) (i : Instr), decode w = .ok i ↔ encode i = w

/-- Which words are rejected, and with which code, by the fields of 30_encoding.md R51 and R52. That no other code comes from
the decoder, because it makes only the first two of the checks of R54, is DEDUCED: notes/assumptions/13.md. -/
def Obligations.DecoderRejectsExactlyReservedWords : Prop :=
  ∀ w : Word,
    (decode w = .error .reservedOpcode ↔ fieldOP w = 0 ∨ 8 ≤ (fieldOP w).toNat) ∧
    (decode w = .error .reservedField ↔
      (1 ≤ (fieldOP w).toNat ∧ (fieldOP w).toNat ≤ 7) ∧
      (fieldZ w ≠ 0 ∨ (fieldOP w ≠ 3 ∧ fieldB w ≠ 0) ∨
        ((fieldOP w = 1 ∨ fieldOP w = 2 ∨ fieldOP w = 6) ∧ fieldA w ≠ 0))) ∧
    (∀ e, decode w = .error e → e = .reservedOpcode ∨ e = .reservedField)

/-- Command words written out from 30_encoding.md R51 and R58 (the words of 95_test_vectors.md section 2.4) decode to the
commands they stand for. -/
def Obligations.WordsOfTheSpecDecode : Prop :=
  decode 0x00000001 = .ok .init ∧ decode 0x00000002 = .ok .clear ∧
  decode 0x00050003 = .ok (.setcur 0 5) ∧ decode 0x0041FF03 = .ok (.setcur 255 0x41) ∧
  decode 0x00000C04 = .ok (.sendcmd 0x0C) ∧ decode 0x00004105 = .ok (.senddata 0x41) ∧
  decode 0x00000006 = .ok .wtext ∧ decode 0x00000A07 = .ok (.wint 10) ∧
  decode 0x01000003 = .error .reservedField ∧ decode 0xFF000009 = .error .reservedOpcode

/-! ## A CMD write -/

/-- A step in which the host writes a word to CMD is the CMD write of that word, of one the decoder rejects too and while BUSY
= 1 too, after the event and the host's operation are taken off; a command's word runs that command
(43_host_interface.md R102). The last clause, the step that `withFetchWord` prepares, is about the model's own loading device
(DESIGN CHOICE: notes/assumptions/2.md). -/
def Obligations.StepRunsTheWrittenCommand : Prop :=
  (∀ (s : State) (w : Word) (ops : List HostOp),
    s.nextEvent = .host → s.host.prog = .wr 0 w :: ops →
    step s = writeCmd w (s.popped ops) ∧ ∀ i, decode w = .ok i → step s = exec i (s.popped ops)) ∧
  (∀ (s : State) (nbits w : Nat) (i : Instr),
    decodeTableWord nbits w = some i → step (s.withFetchWord nbits w) = exec i s)

/-- 60_exceptions.md R115: a write to CMD while BUSY = 1, of any word, sets CMDOVR and does nothing else; so does every
command offered then. -/
def Obligations.BusyCmdWriteOnlySetsOverrun : Prop :=
  ∀ (s : State), s.dpe.phase ≠ .idle →
    (∀ w : Word, writeCmd w s = .next { s with status := { s.status with cmdovr := true } }) ∧
    (∀ i : Instr, exec i s = .next { s with status := { s.status with cmdovr := true } })

/-- 60_exceptions.md R114: a rejected word sets CMDERR, writes ERRCODE when CMDERR was 0, and changes nothing else,
whether the decoder (30_encoding.md R54) or WINT's base or conversion (40_int_to_text.md R62, 41_display_driver.md R89) rejects
it. The codes are those of R113; that CONV_UNDEFINED is code 4 and no fault is DEDUCED: notes/assumptions/10.md. -/
def Obligations.RejectedWordRecordsFirstCode : Prop :=
  ∀ (s : State) (w : Word) (e : CmdError) (code : BitVec 4), s.dpe.phase = .idle →
    (e = .reservedOpcode ∧ code = 1) ∨ (e = .reservedField ∧ code = 2) ∨ (e = .badBase ∧ code = 3) ∨
      (e = .convUndefined ∧ code = 4) ∨ (e = .convOverflow ∧ code = 5) →
    (decode w = .error e ∨
      ∃ base, decode w = .ok (.wint base) ∧
        ((baseInRange base = false ∧ e = .badBase) ∨
          (baseInRange base = true ∧ intToText s.arg base.toNat = .error e))) →
    writeCmd w s = .next { s with status := { s.status with
      cmderr := true, errcode := if s.status.cmderr = true then s.status.errcode else code } }

/-- 30_encoding.md R53: a word with a reserved OP is rejected with RESERVED_OPCODE and sends nothing, and every word is one
of the seven commands or rejected with a named code. -/
def Obligations.ReservedOpcodeSendsNothing : Prop :=
  ∀ w : Word,
    ((fieldOP w = 0 ∨ 8 ≤ (fieldOP w).toNat) →
      decode w = .error .reservedOpcode ∧
      ∀ s : State, s.dpe.phase = .idle → ∃ t, writeCmd w s = .next t ∧
        t.status.cmderr = true ∧ (s.status.cmderr = false → t.status.errcode = 1) ∧
        t.dpe = s.dpe ∧ t.log = s.log) ∧
    ((∃ i, decode w = .ok i) ∨ ∃ e, decode w = .error e)

/-! ## The commands -/

/-- INIT on an idle block is accepted: STATE INITIALIZING, a pre-wait of 50 ms from now, the nine items of
41_display_driver.md R82, ARG latched, and nothing else changes (R76, R83) but the model's own mark in the observation
(DESIGN CHOICE: notes/assumptions/11.md). -/
def Obligations.InitIsAccepted : Prop :=
  ∀ s : State, s.dpe.phase = .idle →
    exec .init s = .next { s with
      status := { s.status with state := .initializing }
      dpe := { s.dpe with
        phase := .prewait, t0 := s.now, dcur := 50, curop := some .init, argl := s.arg, txt := none
        q := [⟨0x30, 0, 50⟩, ⟨0x30, 0, 5⟩, ⟨0x30, 0, 10⟩, ⟨0x20, 0, 10⟩, ⟨0x28, 0, 1⟩,
              ⟨0x08, 0, 2⟩, ⟨0x01, 0, 2⟩, ⟨0x06, 0, 1⟩, ⟨0x0C, 0, 1⟩] }
      log := .accepted .init s.arg s.clock :: s.log }

/-- CLEAR, SENDCMD and SENDDATA on an idle block are accepted with the one item of 41_display_driver.md R84, R86, R87, and
nothing else changes but the mark of notes/assumptions/11.md. -/
def Obligations.OneByteCommandsAreAccepted : Prop :=
  ∀ (s : State) (i : Instr) (it : Item), s.dpe.phase = .idle →
    (i = .clear ∧ it = ⟨0x01, 0, 2⟩) ∨
    (∃ b : Byte, i = .sendcmd b ∧ it = ⟨b, 0, if b = 1 ∨ b = 2 ∨ b = 3 then 2 else 1⟩) ∨
    (∃ b : Byte, i = .senddata b ∧ it = ⟨b, 1, 1⟩) →
    exec i s = .next { s with
      dpe := { s.dpe with phase := .issue, curop := some i.opcode, argl := s.arg, txt := none, q := [it] }
      log := .accepted i s.arg s.clock :: s.log }

/-- SETCUR on an idle block is accepted with the command byte of 41_display_driver.md R85: the column OR-ed into 0x80 on
row 0 and 0xC0 on row 1, and the unmodified column on every other row; nothing else changes but the mark of notes/assumptions/11.md. -/
def Obligations.SetcurIsAccepted : Prop :=
  ∀ (s : State) (row col : Byte), s.dpe.phase = .idle → ∃ t c,
    exec (.setcur row col) s = .next t ∧
    (row = 0 → c = 0x80 ||| col) ∧ (row = 1 → c = 0xC0 ||| col) ∧ (row ≠ 0 → row ≠ 1 → c = col) ∧
    t = { s with
      dpe := { s.dpe with
        phase := .issue, curop := some .setcur, argl := s.arg, txt := none
        q := [⟨c, 0, if c = 1 ∨ c = 2 ∨ c = 3 then 2 else 1⟩] }
      log := .accepted (.setcur row col) s.arg s.clock :: s.log }

/-- WTEXT on an idle block is accepted with no item and the text pointer at ARG (41_display_driver.md R88), and nothing
else changes but the mark of notes/assumptions/11.md. -/
def Obligations.WtextIsAccepted : Prop :=
  ∀ s : State, s.dpe.phase = .idle →
    exec .wtext s = .next { s with
      dpe := { s.dpe with phase := .issue, curop := some .wtext, argl := s.arg, txt := some s.arg, q := [] }
      log := .accepted .wtext s.arg s.clock :: s.log }

/-- WINT on an idle block completes exactly as 41_display_driver.md R89 says: with a base of 2 to 36, a value that is not
negative in a base other than 10, and a magnitude whose text has at most 11 characters (below base^11, or any value in
base 10), it is accepted with one data item a character; the characters stand for the value; nothing else changes but the mark of
notes/assumptions/11.md. -/
def Obligations.WintIsAccepted : Prop :=
  ∀ (s : State) (base : Byte), s.dpe.phase = .idle →
    2 ≤ base.toNat → base.toNat ≤ 36 → (0 ≤ s.arg.toInt ∨ base.toNat = 10) →
    (s.arg.toInt < (base.toNat : Int) ^ 11) →
    ∃ text : List Byte, intToText s.arg base.toNat = .ok text ∧
      text.length ≤ 11 ∧ textValue base.toNat text = s.arg.toInt ∧
      exec (.wint base) s = .next { s with
        dpe := { s.dpe with
          phase := .issue, curop := some .wint, argl := s.arg, txt := none
          q := text.map fun c => ⟨c, 1, 1⟩ }
        log := .accepted (.wint base) s.arg s.clock :: s.log }

/-- WINT on an idle block records BAD_BASE (code 3) for a base outside 2 to 36, else CONV_UNDEFINED (4) for a negative value
in a base other than 10, else CONV_OVERFLOW (5) for a text of more than 11 characters (60_exceptions.md R113, R118, 40_int_to_text.md R62,
R66, R67); it sends nothing and changes nothing but STATUS. Taking R66's code 4 is DEDUCED: notes/assumptions/10.md. -/
def Obligations.WintIsRejectedInOrder : Prop :=
  ∀ (s : State) (base : Byte) (code : BitVec 4), s.dpe.phase = .idle →
    (¬ (2 ≤ base.toNat ∧ base.toNat ≤ 36) ∧ code = 3) ∨
    (2 ≤ base.toNat ∧ base.toNat ≤ 36 ∧ s.arg.toInt < 0 ∧ base.toNat ≠ 10 ∧ code = 4) ∨
    (2 ≤ base.toNat ∧ base.toNat ≤ 36 ∧ 0 ≤ s.arg.toInt ∧ (base.toNat : Int) ^ 11 ≤ s.arg.toInt ∧ code = 5) →
    exec (.wint base) s = .next { s with status := { s.status with
      cmderr := true, errcode := if s.status.cmderr = true then s.status.errcode else code } }

/-- What no command changes when it is accepted, rejected or dropped: the edge counter, ARG, host memory at every address,
the host, the tick, the parameters, BUSTO and the frame; STATE only by INIT; t0 and dcur only by INIT; the observation
grows by at most one mark (41_display_driver.md R76, R81, R83; 10_state.md R33). -/
def Obligations.CommandsLeaveTheRestAlone : Prop :=
  ∀ (i : Instr) (s t : State), exec i s = .next t →
    t.dec = s.dec ∧ t.arg = s.arg ∧ (∀ a, memRead t a = memRead s a) ∧ t.mem = s.mem ∧ t.host = s.host ∧
    t.clock = s.clock ∧ t.params = s.params ∧ t.events = s.events ∧ t.draws = s.draws ∧
    t.status.busto = s.status.busto ∧ t.dpe.frame = s.dpe.frame ∧
    (i ≠ .init → t.status.state = s.status.state ∧ t.dpe.t0 = s.dpe.t0 ∧ t.dpe.dcur = s.dpe.dcur) ∧
    (t.log = s.log ∨ t.log = .accepted i s.arg s.clock :: s.log)

/-! ## Integer-to-text -/

/-- 95_test_vectors.md P1: the text of a value, read back in its base, is the value; it has at most 11 characters. -/
def Obligations.TextOfIntegerReadsBack : Prop :=
  ∀ (n : Word) (base : Nat) (text : List Byte), 2 ≤ base → base ≤ 36 → intToText n base = .ok text →
    textValue base text = n.toInt ∧ 1 ≤ text.length ∧ text.length ≤ 11

/-- When the conversion fails and with which code, for a base of 2 to 36 (40_int_to_text.md R61, R65 to R67). -/
def Obligations.ConversionFailsExactlyWhen : Prop :=
  ∀ (n : Word) (base : Nat), 2 ≤ base → base ≤ 36 →
    (intToText n base = .error .convUndefined ↔ n.toInt < 0 ∧ base ≠ 10) ∧
    (intToText n base = .error .convOverflow ↔ 0 ≤ n.toInt ∧ (base : Int) ^ 11 ≤ n.toInt) ∧
    (∀ e, intToText n base = .error e → e = .convUndefined ∨ e = .convOverflow)

/-- 40_int_to_text.md R63: zero is the single character "0" in every base 2 to 36. -/
def Obligations.ZeroIsOneCharacter : Prop :=
  ∀ base : Nat, 2 ≤ base → base ≤ 36 → intToText 0 base = .ok [0x30]

/-- 40_int_to_text.md R64: the characters after the sign are digits of the base, '0' to '9' and 'a' to 'z', most
significant first, for the magnitude of the value, with no leading zero but for the text "0". -/
def Obligations.DigitsAreOfTheBase : Prop :=
  ∀ (n : Word) (base : Nat) (text : List Byte), 2 ≤ base → base ≤ 36 → intToText n base = .ok text →
    (∀ b ∈ (if n.toInt < 0 then text.tail else text),
      ((0x30 ≤ b.toNat ∧ b.toNat ≤ 0x39) ∨ (0x61 ≤ b.toNat ∧ b.toNat ≤ 0x7A)) ∧ digitValue b < base) ∧
    digitsValue base (if n.toInt < 0 then text.tail else text) = n.toInt.natAbs ∧
    ((if n.toInt < 0 then text.tail else text).head? = some 0x30 → text = [0x30])

/-- 40_int_to_text.md R65: the text starts with '-' exactly for a negative value, in base 10 the digits of its exact
magnitude follow the sign and every value has a text, and the least value is converted exactly. -/
def Obligations.SignIsShownExactlyWhenNegative : Prop :=
  (∀ (n : Word) (base : Nat) (text : List Byte), 2 ≤ base → base ≤ 36 → intToText n base = .ok text →
    (text.head? = some 0x2D ↔ n.toInt < 0)) ∧
  (∀ (n : Word) (text : List Byte), n.toInt < 0 → intToText n 10 = .ok text →
    text.head? = some 0x2D ∧ digitsValue 10 text.tail = n.toInt.natAbs) ∧
  (∀ n : Word, ∃ text, intToText n 10 = .ok text) ∧
  intToText 0x80000000 10 = .ok [0x2D, 0x32, 0x31, 0x34, 0x37, 0x34, 0x38, 0x33, 0x36, 0x34, 0x38]

/-! ## Frames -/

/-- The four bytes of a frame, bit by bit: the high nibble twice, then the low nibble twice, the strobe 1, 0, 1, 0, the
backlight level, RW 0 and the register-select bit in every byte (41_display_driver.md R68 to R71; the places of the control bits are
PRESUMED: notes/assumptions/18.md). -/
def Obligations.FrameBytesBitByBit : Prop :=
  ∀ (bl rs : BitVec 1) (b : Byte), ∃ f0 f1 f2 f3 : Byte, frameOf bl b rs = [f0, f1, f2, f3] ∧
    f0.extractLsb' 4 4 = b.extractLsb' 4 4 ∧ f1.extractLsb' 4 4 = b.extractLsb' 4 4 ∧
    f2.extractLsb' 4 4 = b.extractLsb' 0 4 ∧ f3.extractLsb' 4 4 = b.extractLsb' 0 4 ∧
    f0.getLsbD 2 = true ∧ f1.getLsbD 2 = false ∧ f2.getLsbD 2 = true ∧ f3.getLsbD 2 = false ∧
    ∀ f ∈ [f0, f1, f2, f3],
      f.extractLsb' 3 1 = bl ∧ f.getLsbD 1 = false ∧ f.extractLsb' 0 1 = rs

/-! ## The sequencer -/

/-- 41_display_driver.md R77, R72: in phase ISSUE with an item to send, a DPE step starts one transaction of the item's
frame, with address byte 0x4E, length 4 and timeout 100, records its start, goes to XFER, and changes nothing else. That a frame is
one transaction is PRESUMED: notes/assumptions/19.md. -/
def Obligations.IssueStartsOneTransaction : Prop :=
  ∀ (s : State) (it : Item) (rest : List Item),
    s.nextEvent = .dpe → s.dpe.phase = .issue → s.dpe.q = it :: rest →
    step s = .next { s.takeEvent with
      dpe := { s.dpe with phase := .xfer, frame := frameOf s.params.blLevel it.byte it.rs }
      log := .tx { addr := 0x4E, frame := frameOf s.params.blLevel it.byte it.rs, len := 4, timeoutMs := 100,
                   item := it, start := s.clock, ret := none } :: s.log }

/-- 41_display_driver.md R78, R73: when the transport returns in phase XFER, BUSTO is set on `timeout` only, the head item
is dropped, its gap starts at this tick, and nothing else changes; the command goes on the same way on `timeout`. -/
def Obligations.ReturnStartsTheGap : Prop :=
  ∀ (s : State) (it : Item) (rest : List Item) (tx : Transaction) (log : List Obs) (r : BusResult),
    s.nextEvent = .bus r → s.dpe.phase = .xfer → s.dpe.q = it :: rest → s.log = .tx tx :: log →
    step s = .next { s.takeEvent with
      status := { s.status with busto := s.status.busto || decide (r = .timeout) }
      dpe := { s.dpe with q := rest, t0 := s.now, dcur := it.gap, phase := .wait }
      log := .tx { tx with ret := some (s.clock, r) } :: log }

/-- A step that is not enabled changes nothing but the schedule (DESIGN CHOICE: notes/assumptions/15.md): a return of the
transport outside phase XFER (70_reset_and_hazards.md R132), a DPE step in IDLE or XFER, before the wait is over
(41_display_driver.md R75) or at a text byte the platform does not admit (20_memory.md R40), an evaluation without a pending
edge (42_edge_counter.md R92), and a host step with no operation left. -/
def Obligations.StepsNotEnabledChangeNothing : Prop :=
  ∀ s : State,
    ((∃ r, s.nextEvent = .bus r) → s.dpe.phase ≠ .xfer → step s = .next s.takeEvent) ∧
    (s.nextEvent = .dpe → (s.dpe.phase = .idle ∨ s.dpe.phase = .xfer) → step s = .next s.takeEvent) ∧
    (s.nextEvent = .dpe → (s.dpe.phase = .prewait ∨ s.dpe.phase = .wait) →
      (s.now - s.dpe.t0).toNat < s.dpe.dcur + 1 → step s = .next s.takeEvent) ∧
    (∀ a, s.nextEvent = .dpe → s.dpe.phase = .issue → s.dpe.q = [] → s.dpe.txt = some a → memRead s a = none →
      step s = .next s.takeEvent) ∧
    (s.nextEvent = .dec → s.dec.pend = false → step s = .next s.takeEvent) ∧
    (s.nextEvent = .host → s.host.prog = [] → step s = .next s.takeEvent)

/-- 41_display_driver.md R79, with the wait of R75: a wait of `dcur` ms that began at `t0` is over at a DPE step when at least
`dcur + 1` ticks have passed, counted modulo 2^32; then the phase is ISSUE, and nothing else changes. -/
def Obligations.WaitEndsAfterItsTicks : Prop :=
  ∀ (s : State), s.nextEvent = .dpe → (s.dpe.phase = .prewait ∨ s.dpe.phase = .wait) →
    s.dpe.dcur + 1 ≤ (s.now - s.dpe.t0).toNat →
    step s = .next { s.takeEvent with dpe := { s.dpe with phase := .issue } }

/-- 41_display_driver.md R80, R83: with nothing left to send, a DPE step ends the command: IDLE, no command, STATE READY
after INIT and unchanged after any other; nothing else changes, and BUSY reads 0. -/
def Obligations.CompletionEndsTheCommand : Prop :=
  ∀ (s : State), s.nextEvent = .dpe → s.dpe.phase = .issue → s.dpe.q = [] → s.dpe.txt = none →
    ∃ t, step s = .next t ∧ (readSlot t .status).getLsbD 2 = false ∧
      t = { s.takeEvent with
        status := { s.status with state := if s.dpe.curop = some .init then .ready else s.status.state }
        dpe := { s.dpe with curop := none, phase := .idle } }

/-- The text step of 41_display_driver.md R88: with the pointer at `a` and a byte `c` read there, the terminator ends the
text and is not sent, and any other byte becomes the one data item to send, with the pointer one further modulo 2^32. -/
def Obligations.TextStepTakesOneByte : Prop :=
  ∀ (s : State) (a : Word) (c : Byte),
    s.nextEvent = .dpe → s.dpe.phase = .issue → s.dpe.q = [] → s.dpe.txt = some a → memRead s a = some c →
    (c = 0 → step s = .next { s.takeEvent with dpe := { s.dpe with txt := none } }) ∧
    (c ≠ 0 → step s = .next { s.takeEvent with dpe := { s.dpe with q := [⟨c, 1, 1⟩], txt := some (a + 1) } })

/-- 20_memory.md R40: a DPE that needs a text byte the platform does not admit stays in phase ISSUE with BUSY = 1 under
every step but a reset. -/
def Obligations.UnadmittedTextReadIsStuck : Prop :=
  ∀ s t : State, s.textStuck → s.nextEvent ≠ .reset → step s = .next t →
    t.textStuck ∧ (readSlot t .status).getLsbD 2 = true

/-- A byte stored to host memory at an admitted address is the byte the DPE reads there next, and no other address reads
differently (20_memory.md R39, R46). That this holds at an address inside the register window too is a DESIGN CHOICE:
notes/assumptions/21.md. -/
def Obligations.StoredTextIsReadBack : Prop :=
  ∀ (s : State) (a : Word) (b : Byte), s.nextEvent = .store a b → ∃ t, step s = .next t ∧
    (s.params.admits a = true → memRead t a = some b) ∧ (∀ x, x ≠ a → memRead t x = memRead s x) ∧
    t.dpe = s.dpe ∧ t.status = s.status ∧ t.dec = s.dec ∧ t.arg = s.arg ∧ t.host = s.host ∧ t.log = s.log

/-! ## The edge counter -/

/-- 42_edge_counter.md R91: a rising edge sets PEND, whether or not it was set, and changes nothing else. -/
def Obligations.EdgeSetsPend : Prop :=
  ∀ s : State, s.nextEvent = .edge → step s = .next { s.takeEvent with dec := { s.dec with pend := true } }

/-- 42_edge_counter.md R93, R95: with a pending edge, an evaluation clears PEND, counts exactly when more than 40 ticks have
passed since the last evaluation, takes this tick as the last evaluation's, counted or not, and changes nothing else. -/
def Obligations.EvaluationCountsAfterTheWindow : Prop :=
  ∀ s : State, s.nextEvent = .dec →
    (s.dec.pend = true → 40 < (s.now - s.dec.lastts).toNat → step s = .next { s.takeEvent with
      dec := { pend := false, count := incCount s.params.cntOvf s.dec.count, lastts := s.now } }) ∧
    (s.dec.pend = true → (s.now - s.dec.lastts).toNat ≤ 40 → step s = .next { s.takeEvent with
      dec := { pend := false, count := s.dec.count, lastts := s.now } })

/-- 42_edge_counter.md R97: the increment of COUNT is plus one below 0x7FFFFFFF, and there CNT_OVF decides. -/
def Obligations.IncrementFollowsOverflowChoice : Prop :=
  (∀ (ovf : CntOvf) (c : Word), c.toInt < 2147483647 → incCount ovf c = c + 1 ∧ (incCount ovf c).toInt = c.toInt + 1) ∧
  incCount .wrap 0x7FFFFFFF = 0x80000000 ∧ incCount .saturate 0x7FFFFFFF = 0x7FFFFFFF

/-- 42_edge_counter.md R98: only an evaluation or a reset writes COUNT; between resets it never decreases, but for the one
step of CNT_OVF = WRAP at 0x7FFFFFFF, and no step raises it by more than 1. -/
def Obligations.CountIsMonotonic : Prop :=
  ∀ s t : State, step s = .next t → s.nextEvent ≠ .reset →
    (t.dec.count ≠ s.dec.count → s.nextEvent = .dec ∧ s.dec.pend = true) ∧
    t.dec.count.toInt ≤ s.dec.count.toInt + 1 ∧
    (s.params.cntOvf = .saturate ∨ s.dec.count ≠ 0x7FFFFFFF → s.dec.count.toInt ≤ t.dec.count.toInt) ∧
    (s.params.cntOvf = .wrap → s.dec.count = 0x7FFFFFFF → t.dec.count = 0x7FFFFFFF ∨ t.dec.count = 0x80000000)

/-- 42_edge_counter.md R96: a train of edges, each evaluated less than 41 ticks after the evaluation before it, with
no other agent's step between, never counts, however long it is; the last evaluation's tick is kept. -/
def Obligations.BounceTrainNeverCounts : Prop :=
  ∀ (s : State) (gaps : List Nat), s.now = s.dec.lastts → (∀ gap ∈ gaps, gap ≤ 40) →
    ∃ t : State, Sys2Proof.core.run (edgeTrain gaps).length (s.scheduled (edgeTrain gaps)) = .next t ∧
      t.dec.count = s.dec.count ∧ t.clock = s.clock + gaps.sum ∧ t.dec.lastts = t.now ∧ t.dpe = s.dpe

/-- 42_edge_counter.md R100: the edge counter's steps neither read nor write the sequencer's state or STATUS, and the
sequencer's and the transport's steps neither read nor write PEND, LASTTS or COUNT. -/
def Obligations.UnitsAreIndependent : Prop :=
  ∀ (s : State) (d : Dec) (p : Dpe) (st : Status),
    dpeStep { s with dec := d } = { dpeStep s with dec := d } ∧
    (∀ r, busReturn r { s with dec := d } = { busReturn r s with dec := d }) ∧
    decStep { s with dpe := p, status := st } = { decStep s with dpe := p, status := st } ∧
    edgeStep { s with dpe := p, status := st } = { edgeStep s with dpe := p, status := st }

/-- Nothing the host, its memory, the sequencer or the transport holds reaches the edge counter: two machines with the same
counter, tick, overflow choice and schedule keep the same counter and tick over a step (42_edge_counter.md R100,
43_host_interface.md R108). -/
def Obligations.CounterSeesOnlyEdgesAndTicks : Prop :=
  ∀ s s' t t' : State, s.dec = s'.dec → s.clock = s'.clock → s.params.cntOvf = s'.params.cntOvf →
    s.events = s'.events → s.draws = s'.draws → step s = .next t → step s' = .next t' →
    t.dec = t'.dec ∧ t.clock = t'.clock ∧ t.events = t'.events ∧ t.draws = t'.draws

/-! ## The register window -/

/-- 20_memory.md R35, 10_state.md R12: BLOCK_BASE, whatever it is, is a multiple of 0x20, a host address is BLOCK_BASE and its
offset, word slot k is at BLOCK_BASE + 4k, a 32-bit access there reaches that slot, and no 32-bit access reaches a slot from any
other address. -/
def Obligations.SlotsAreWhereTheWindowSays : Prop :=
  ∀ (p : Params), p.blockBase.toNat % 0x20 = 0 ∧ (∀ addr, p.blockBase + p.offsetOf addr = addr) ∧
    (∀ k : BitVec 3, (p.slotAddr k).toNat = p.blockBase.toNat + 4 * k.toNat ∧
      target (p.offsetOf (p.slotAddr k)) .word = .slot (slotAt k)) ∧
    (∀ addr slot, target (p.offsetOf addr) .word = .slot slot → ∃ k : BitVec 3, addr = p.slotAddr k ∧ slot = slotAt k)

/-- 43_host_interface.md R101, R106; 20_memory.md R37: a 32-bit aligned read answers the word of the table and changes no
block state, nor anything else but what the host holds. -/
def Obligations.ReadsAnswerTheTable : Prop :=
  ∀ (s : State) (k : BitVec 3) (ops : List HostOp),
    s.nextEvent = .host → s.host.prog = .read (s.params.offsetOf (s.params.slotAddr k)) .word :: ops →
    ∃ v, step s = .next { s.popped ops with host := { s.host with prog := ops, rdata := some v } } ∧
      (k = 0 → v = 0) ∧ (k = 1 → v = s.arg) ∧
      (k = 2 → v = s.status.errcode.setWidth 32 <<< 8 ||| flagBit s.status.cmderr <<< 5 |||
        flagBit s.status.cmdovr <<< 4 ||| flagBit s.status.busto <<< 3 |||
        flagBit (decide (s.dpe.phase ≠ .idle)) <<< 2 ||| s.status.state.code.setWidth 32) ∧
      (k = 3 → v = s.dec.count) ∧ (k = 4 → v = flagBit s.dec.pend) ∧ (5 ≤ k.toNat → v = 0)

/-- 10_state.md R15 to R20, R32: the fields of the word STATUS reads as, bit by bit, with STATE 0 for UNINIT, 1 for
INITIALIZING, 2 for READY and never 3, and the reserved bits 0. -/
def Obligations.StatusWordFields : Prop :=
  ∀ s : State, ∃ v, readSlot s .status = v ∧
    (s.status.state = .uninit → v.extractLsb' 0 2 = 0) ∧ (s.status.state = .initializing → v.extractLsb' 0 2 = 1) ∧
    (s.status.state = .ready → v.extractLsb' 0 2 = 2) ∧ v.extractLsb' 0 2 ≠ 3 ∧
    v.getLsbD 2 = decide (s.dpe.phase ≠ .idle) ∧ v.getLsbD 3 = s.status.busto ∧
    v.getLsbD 4 = s.status.cmdovr ∧ v.getLsbD 5 = s.status.cmderr ∧
    v.extractLsb' 6 2 = 0 ∧ v.extractLsb' 8 4 = s.status.errcode ∧ v.extractLsb' 12 20 = 0

/-- 43_host_interface.md R104: a write to STATUS clears BUSTO, CMDOVR, and CMDERR with ERRCODE where bits 3, 4 and 5 of the
value are 1, leaves each where its bit is 0, and changes nothing else. -/
def Obligations.StatusWriteClearsStickyBits : Prop :=
  ∀ (s : State) (v : Word) (ops : List HostOp),
    s.nextEvent = .host → s.host.prog = .wr 2 v :: ops →
    step s = .next { s.popped ops with status := { s.status with
      busto   := if v.getLsbD 3 = true then false else s.status.busto
      cmdovr  := if v.getLsbD 4 = true then false else s.status.cmdovr
      cmderr  := if v.getLsbD 5 = true then false else s.status.cmderr
      errcode := if v.getLsbD 5 = true then 0 else s.status.errcode } }

/-- 43_host_interface.md R103: a write to ARG stores the word and changes nothing else, `argl` of a command already accepted
included. -/
def Obligations.ArgWriteStoresTheWord : Prop :=
  ∀ (s : State) (v : Word) (ops : List HostOp),
    s.nextEvent = .host → s.host.prog = .wr 1 v :: ops → step s = .next { s.popped ops with arg := v }

/-- 43_host_interface.md R105: writes to COUNT, EDGE and the reserved slots are ignored. -/
def Obligations.ReadOnlySlotsIgnoreWrites : Prop :=
  ∀ (s : State) (k : BitVec 3) (v : Word) (ops : List HostOp),
    s.nextEvent = .host → s.host.prog = .wr k v :: ops → 3 ≤ k.toNat → step s = .next (s.popped ops)

/-- 20_memory.md R36: an access of the window that is not 32 bits wide or not at a multiple of 4 changes no block state, a
read returns no value, and the refusal is recorded; that the run goes on is DEDUCED: notes/assumptions/4.md. An access that
begins outside the window is no access of the block: no refusal is recorded and a read returns no value (DESIGN CHOICE:
notes/assumptions/5.md). -/
def Obligations.NarrowOrMisalignedAccessIsRefused : Prop :=
  ∀ (s : State) (addr v : Word) (width : Width) (ops : List HostOp), s.nextEvent = .host →
    let off := s.params.offsetOf addr
    let inside := s.params.blockBase.toNat ≤ addr.toNat ∧ addr.toNat < s.params.blockBase.toNat + 0x20
    (inside → (width ≠ .word ∨ addr.toNat % 4 ≠ 0) →
      (s.host.prog = .read off width :: ops → step s = .next { s.popped ops with
        host := { prog := ops, rdata := none, refused := .read off width :: s.host.refused } }) ∧
      (s.host.prog = .write off width v :: ops → step s = .next { s.popped ops with
        host := { s.host with prog := ops, refused := .write off width v :: s.host.refused } })) ∧
    (¬ inside →
      (s.host.prog = .read off width :: ops → step s = .next { s.popped ops with
        host := { s.host with prog := ops, rdata := none } }) ∧
      (s.host.prog = .write off width v :: ops → step s = .next (s.popped ops)))

/-- 43_host_interface.md R108: no step of the host touches the edge counter, the tick or host memory, and none but a write
to CMD of an idle block touches the sequencer or the observation; while a command is in progress, none touches them or
STATE. That host memory is among what it leaves is the model's: a store is an event of its own, outside the host's program
(DESIGN CHOICE: notes/assumptions/22.md), and a write outside the window does nothing (DESIGN CHOICE: notes/assumptions/5.md). -/
def Obligations.HostCannotDisturbACommand : Prop :=
  ∀ s t : State, s.nextEvent = .host → step s = .next t →
    t.dec = s.dec ∧ t.clock = s.clock ∧ t.mem = s.mem ∧ t.params = s.params ∧
    (s.dpe.phase ≠ .idle → t.dpe = s.dpe ∧ t.log = s.log ∧ t.status.state = s.status.state) ∧
    (t.dpe ≠ s.dpe ∨ t.log ≠ s.log → s.dpe.phase = .idle ∧ ∃ v ops, s.writesNext .cmd v ops)

/-- 30_encoding.md R59: WAITIDLE reads STATUS at each step and is over at the first step that reads BUSY = 0. -/
def Obligations.WaitIdlePollsUntilIdle : Prop :=
  ∀ (s : State) (ops : List HostOp), s.nextEvent = .host → s.host.prog = .waitIdle :: ops →
    step s = .next { s.takeEvent with host := { s.host with
      rdata := some (readSlot s .status)
      prog := if s.dpe.phase = .idle then ops else .waitIdle :: ops } }

/-- 43_host_interface.md R111: one pass of the reference loop reads COUNT and, when it differs from the value rendered last,
goes on with SETCUR 0, 0 and WINT 10 of the new value, each after WAITIDLE; else it polls again. That the pass is one host
operation is a DESIGN CHOICE: notes/assumptions/16.md. -/
def Obligations.RenderLoopFollowsTheCounter : Prop :=
  ∀ (s : State) (last : Word) (ops : List HostOp), s.nextEvent = .host → s.host.prog = .poll last :: ops →
    step s = .next { s.takeEvent with host := { s.host with
      rdata := some s.dec.count
      prog := if s.dec.count = last then .poll last :: ops
        else [.waitIdle, .wr 0 0x00000003, .waitIdle, .wr 1 s.dec.count,
              .wr 0 0x00000A07, .poll s.dec.count] ++ ops } }

/-- 30_encoding.md R60: a program built from pseudo-instructions, or the reference program, never causes CMDOVR: every
step of any agent, but for the host adding operations of its own, keeps the program guarded and does not set CMDOVR. -/
def Obligations.PseudoProgramsNeverOverrun : Prop :=
  (∀ ps : List Pseudo, guarded false (ps.flatMap Pseudo.expand) = true ∧
    guarded false (ps.flatMap Pseudo.expand ++ referenceProgram) = true) ∧
  (∀ s t : State, guarded (decide (s.dpe.phase = .idle)) s.host.prog = true →
    (∀ op, s.nextEvent ≠ .issue op) → step s = .next t →
    guarded (decide (t.dpe.phase = .idle)) t.host.prog = true ∧
    (t.status.cmdovr = true → s.status.cmdovr = true))

/-! ## Reset -/

/-- 70_reset_and_hazards.md R131: at any time, the reset step gives every piece of the block's state its value of
10_state.md R31, whatever was in progress. -/
def Obligations.ResetSetsTheBlock : Prop :=
  ∀ s : State, s.nextEvent = .reset → ∃ t, step s = .next t ∧
    t.arg = 0 ∧
    t.status = { state := .uninit, busto := false, cmdovr := false, cmderr := false, errcode := 0 } ∧
    t.dec = { pend := false, count := 0, lastts := 0 } ∧
    t.dpe = { phase := .idle, curop := none, q := [], txt := none, argl := 0, t0 := 0, dcur := 0, frame := [] } ∧
    ∀ k : BitVec 3, readSlot t (slotAt k) = 0

/-- What the reset step leaves alone, which no rule says: the parameters, the tick, host memory, the host and the schedule
(DEDUCED: notes/assumptions/12.md); the observation is kept and gains a mark (DESIGN CHOICE: notes/assumptions/11.md). -/
def Obligations.ResetLeavesTheSurroundings : Prop :=
  ∀ s : State, s.nextEvent = .reset → ∃ t, step s = .next t ∧
    t.params = s.params ∧ t.clock = s.clock ∧ (∀ a, memRead t a = memRead s a) ∧ t.mem = s.mem ∧ t.host = s.host ∧
    t.events = s.takeEvent.events ∧ t.draws = s.takeEvent.draws ∧ t.log = .reset s.clock :: s.log

/-- The machine starts with the block in the values of 10_state.md R31, and every slot reads 0. -/
def Obligations.StartsInTheResetValues : Prop :=
  State.reset.arg = 0 ∧
  State.reset.status = { state := .uninit, busto := false, cmdovr := false, cmderr := false, errcode := 0 } ∧
  State.reset.dec = { pend := false, count := 0, lastts := 0 } ∧
  State.reset.dpe = { phase := .idle, curop := none, q := [], txt := none, argl := 0, t0 := 0, dcur := 0, frame := [] } ∧
  ∀ k : BitVec 3, readSlot State.reset (slotAt k) = 0

/-! ## Every step -/

/-- The machine never stops: every step of every state answers a next state. R112 of 60_exceptions.md says that the block never
traps; that no step of any agent stops is the model's inference (DEDUCED: notes/assumptions/17.md, for refused accesses
notes/assumptions/4.md; DESIGN CHOICE for steps that are not enabled: notes/assumptions/15.md). -/
def Obligations.StepNeverStops : Prop := ∀ s : State, ∃ t, step s = .next t

/-- No step changes the parameters of the instance or, but for a store event, host memory, and the tick never goes back. The
spec says of this that BL_LEVEL and CNT_OVF are fixed for the instance (10_state.md R26), that the block never writes host
memory (20_memory.md R39) and that the tick never goes back (10_state.md R29). The rest is the model's: that no host write
changes host memory (DESIGN CHOICE: notes/assumptions/22.md, and notes/assumptions/5.md outside the window), that BLOCK_BASE and the admitted addresses are fixed too (DESIGN CHOICE:
notes/assumptions/6.md, notes/assumptions/8.md), that a reset keeps memory, tick and parameters (DEDUCED:
notes/assumptions/12.md). A tick step moves the tick by its `n` and changes nothing else (R29); the step that gives the host one
more operation changes nothing else (the model's own event, DESIGN CHOICE: notes/assumptions/3.md). -/
def Obligations.BlockNeverWritesMemoryOrParameters : Prop :=
  (∀ s t : State, step s = .next t →
    t.params = s.params ∧ ((∀ a b, s.nextEvent ≠ .store a b) → t.mem = s.mem) ∧ s.clock ≤ t.clock) ∧
  (∀ (s : State) (n : Nat), s.nextEvent = .tick n → step s = .next { s.takeEvent with clock := s.clock + n }) ∧
  (∀ (s : State) (op : HostOp), s.nextEvent = .issue op →
    step s = .next { s.takeEvent with host := { s.host with prog := s.host.prog ++ [op] } })

/-- 10_state.md R18 to R20, R22, R33: which steps set and which clear each flag. A sticky bit is cleared only by a reset or by
a write to STATUS with a 1 in its own bit. -/
def Obligations.FlagsChangeOnlyByTheirWriters : Prop :=
  ∀ s t : State, step s = .next t →
    (s.status.busto = false → t.status.busto = true → s.nextEvent = .bus .timeout ∧ s.dpe.phase = .xfer) ∧
    (s.status.busto = true → t.status.busto = false → s.nextEvent = .reset ∨
      (s.nextEvent = .host ∧ ∃ v ops, s.writesNext .status v ops ∧ v.getLsbD 3 = true)) ∧
    (s.status.cmdovr = false → t.status.cmdovr = true →
      s.nextEvent = .host ∧ s.dpe.phase ≠ .idle ∧ ∃ w ops, s.writesNext .cmd w ops) ∧
    (s.status.cmdovr = true → t.status.cmdovr = false → s.nextEvent = .reset ∨
      (s.nextEvent = .host ∧ ∃ v ops, s.writesNext .status v ops ∧ v.getLsbD 4 = true)) ∧
    (s.status.cmderr = false → t.status.cmderr = true →
      s.nextEvent = .host ∧ s.dpe.phase = .idle ∧ ∃ w ops, s.writesNext .cmd w ops) ∧
    (s.status.cmderr = true → t.status.cmderr = true → t.status.errcode = s.status.errcode) ∧
    (s.status.cmderr = true → t.status.cmderr = false → t.status.errcode = 0 ∧ (s.nextEvent = .reset ∨
      (s.nextEvent = .host ∧ ∃ v ops, s.writesNext .status v ops ∧ v.getLsbD 5 = true))) ∧
    (s.dec.pend = false → t.dec.pend = true → s.nextEvent = .edge) ∧
    (s.dec.pend = true → t.dec.pend = false → s.nextEvent = .dec ∨ s.nextEvent = .reset)

/-- 41_display_driver.md R83: STATE changes only to INITIALIZING at the accept of INIT, to READY at the completion of INIT,
and to UNINIT at reset. -/
def Obligations.StateFollowsInit : Prop :=
  ∀ s t : State, step s = .next t → t.status.state ≠ s.status.state →
    (t.status.state = .initializing ∧ s.nextEvent = .host ∧ s.dpe.phase = .idle ∧ t.dpe.curop = some .init) ∨
    (t.status.state = .ready ∧ s.nextEvent = .dpe ∧ s.dpe.curop = some .init ∧ t.dpe.phase = .idle) ∨
    (t.status.state = .uninit ∧ s.nextEvent = .reset)

/-- The invariant holds at reset. -/
def Obligations.ResetSatisfiesInvariant : Prop := State.reset.Inv

/-- Every step of every agent keeps the invariant `State.Inv`: memory in canonical form, ERRCODE and CMDERR together, STATE
INITIALIZING exactly during INIT, at most 11 items each with a gap, the text pointer at the next address of its text, and
the observation of 41_display_driver.md R90: the frames are those of the accepted commands in accept order, never
overlapping, each after the gap of the one before. -/
def Obligations.EveryStepKeepsTheInvariant : Prop :=
  ∀ s t : State, s.Inv → step s = .next t → t.Inv

/-- 20_memory.md R44, 43_host_interface.md R109: a read of BUSY = 0 means every effect of the last accepted command is
complete: all of it sent, every transmit returned and the last gap over. -/
def Obligations.IdleMeansComplete : Prop :=
  ∀ s : State, s.Inv → (readSlot s .status).getLsbD 2 = false →
    s.dpe.q = [] ∧ s.dpe.txt = none ∧ s.dpe.curop = none ∧ SentAll s.log ∧ RestedAt s.log s.clock ∧
    s.status.state ≠ .initializing

/-- 41_display_driver.md R90, R74: between the return of one transaction and the start of the next, with no reset between
them, the tick has advanced by at least the gap of the first one's item plus one; and the first had returned. -/
def Obligations.TransactionsAreSpaced : Prop :=
  ∀ (s : State) (newer between older : List Obs) (t₁ t₂ : Transaction), s.Inv →
    s.log = newer ++ .tx t₂ :: between ++ .tx t₁ :: older →
    (∀ o ∈ between, ∃ i arg c, o = .accepted i arg c) →
    ∃ c r, t₁.ret = some (c, r) ∧ t₁.start ≤ c ∧ c + t₁.item.gap + 1 ≤ t₂.start

/-- 70_reset_and_hazards.md R143: a command that is over has taken at least the ticks its waits cost, 142 for INIT and 3 for
CLEAR. -/
def Obligations.CommandsTakeTheirWaits : Prop :=
  (∀ (s : State) (i : Instr) (arg : Word) (c : Nat), s.Inv → s.dpe.phase = .idle →
    lastAccepted s.log = some (i, arg, c) → c + leastWait i (sentSince s.log) ≤ s.clock) ∧
  (∀ (s : State) (arg : Word) (c : Nat), s.Inv → s.dpe.phase = .idle →
    lastAccepted s.log = some (.init, arg, c) → c + 142 ≤ s.clock) ∧
  (∀ (s : State) (arg : Word) (c : Nat), s.Inv → s.dpe.phase = .idle →
    lastAccepted s.log = some (.clear, arg, c) → c + 3 ≤ s.clock)

/-- A command in progress whose items are known (every command but a WTEXT that still reads) can always be brought to its
end by the DPE, the tick and a bus that answers, and then every item left has been sent, in order
(41_display_driver.md R77 to R80). -/
def Obligations.CommandInProgressCanComplete : Prop :=
  ∀ s : State, s.Inv → s.dpe.phase ≠ .idle → s.dpe.txt = none →
    ∃ (es : List Event) (t : State), (∀ e ∈ es, e.isDisplayWork = true) ∧
      Sys2Proof.core.run es.length (s.scheduled es) = .next t ∧
      t.dpe.phase = .idle ∧ sentSince t.log = sentSince s.log ++ s.dpe.unsent ∧
      t.events = s.events ∧ t.dec = s.dec ∧ t.status.busto = s.status.busto

/-- WTEXT of a string in admitted memory can always be brought to its end, and has then sent exactly the string's bytes as
data, without the terminator (41_display_driver.md R88, 20_memory.md R39); for a string inside the register window this rests on
notes/assumptions/21.md (DESIGN CHOICE). -/
def Obligations.WtextSendsTheString : Prop :=
  ∀ (s : State) (text : List Byte), s.dpe.phase = .idle → (∀ c ∈ text, c ≠ 0) →
    (∀ k (h : k < text.length), memRead s (s.arg + BitVec.ofNat 32 k) = some text[k]) →
    memRead s (s.arg + BitVec.ofNat 32 text.length) = some 0 →
    ∃ (u : State) (es : List Event) (t : State), exec .wtext s = .next u ∧ (∀ e ∈ es, e.isDisplayWork = true) ∧
      Sys2Proof.core.run es.length (u.scheduled es) = .next t ∧
      t.dpe.phase = .idle ∧ sentSince t.log = text.map fun c => ⟨c, 1, 1⟩
end

