-- ==== Sys2Proof/Laws/Decode.lean ====
section
/-! SUPPORT. Laws of the command word: its four fields, what each opcode's mask checks, and what the decoder answers. -/

namespace Sys2Proof

/-- Two appended bit vectors are equal exactly when their parts are. -/
theorem append_eq_append_iff {m n : Nat} (x u : BitVec m) (y v : BitVec n) : x ++ y = u ++ v ↔ x = u ∧ y = v := by
  constructor
  · intro h
    constructor
    · have := congrArg (BitVec.extractLsb' n m) h
      simpa [BitVec.extractLsb'_append_eq_left] using this
    · have := congrArg (BitVec.extractLsb' 0 n) h
      simpa [BitVec.extractLsb'_append_eq_right] using this
  · rintro ⟨rfl, rfl⟩; rfl

/-- Words are equal exactly when their four fields are. -/
theorem packFields_inj (op a b z op' a' b' z' : Byte) :
    packFields op a b z = packFields op' a' b' z' ↔ op = op' ∧ a = a' ∧ b = b' ∧ z = z' := by
  have e₁ := append_eq_append_iff (m := 24) (n := 8) (z ++ b ++ a) (z' ++ b' ++ a') op op'
  have e₂ := append_eq_append_iff (m := 16) (n := 8) (z ++ b) (z' ++ b') a a'
  have e₃ := append_eq_append_iff z z' b b'
  constructor
  · intro h
    obtain ⟨h, h₁⟩ := e₁.mp h
    obtain ⟨h, h₂⟩ := e₂.mp h
    obtain ⟨h₄, h₃⟩ := e₃.mp h
    exact ⟨h₁, h₂, h₃, h₄⟩
  · rintro ⟨rfl, rfl, rfl, rfl⟩; rfl

/-- A word is its four fields. -/
theorem packFields_fields (w : Word) : packFields (fieldOP w) (fieldA w) (fieldB w) (fieldZ w) = w := by
  apply BitVec.eq_of_getLsbD_eq
  intro i hi
  simp only [packFields, fieldOP, fieldA, fieldB, fieldZ, BitVec.getLsbD_append, BitVec.getLsbD_extractLsb']
  rcases Nat.lt_or_ge i 8 with h | h
  · simp [h]
  · rcases Nat.lt_or_ge i 16 with h' | h'
    · have e : 8 + (i - 8) = i := by omega
      simp [Nat.not_lt.mpr h, show i - 8 < 8 by omega, e]
    · rcases Nat.lt_or_ge i 24 with h'' | h''
      · have e : 16 + (i - 8 - 8) = i := by omega
        simp [Nat.not_lt.mpr h, show ¬ i - 8 < 8 by omega, show i - 8 - 8 < 8 by omega, e]
      · have e : 24 + (i - 8 - 8 - 8) = i := by omega
        simp [Nat.not_lt.mpr h, show ¬ i - 8 < 8 by omega, show ¬ i - 8 - 8 < 8 by omega,
          show i - 8 - 8 - 8 < 8 by omega, e]

@[simp] theorem fieldOP_packFields (op a b z : Byte) : fieldOP (packFields op a b z) = op :=
  ((packFields_inj ..).mp (packFields_fields (packFields op a b z))).1
@[simp] theorem fieldA_packFields (op a b z : Byte) : fieldA (packFields op a b z) = a :=
  ((packFields_inj ..).mp (packFields_fields (packFields op a b z))).2.1
@[simp] theorem fieldB_packFields (op a b z : Byte) : fieldB (packFields op a b z) = b :=
  ((packFields_inj ..).mp (packFields_fields (packFields op a b z))).2.2.1
@[simp] theorem fieldZ_packFields (op a b z : Byte) : fieldZ (packFields op a b z) = z :=
  ((packFields_inj ..).mp (packFields_fields (packFields op a b z))).2.2.2

/-- Masking a word masks its fields. -/
theorem packFields_and (op a b z op' a' b' z' : Byte) :
    packFields op a b z &&& packFields op' a' b' z' =
      packFields (op &&& op') (a &&& a') (b &&& b') (z &&& z') := by
  have e₁ := BitVec.and_append (x₁ := z ++ b ++ a) (x₂ := z' ++ b' ++ a') (y₁ := op) (y₂ := op')
  have e₂ := BitVec.and_append (x₁ := z ++ b) (x₂ := z' ++ b') (y₁ := a) (y₂ := a')
  have e₃ := BitVec.and_append (x₁ := z) (x₂ := z') (y₁ := b) (y₂ := b')
  rw [e₂, e₃] at e₁
  exact e₁

/-- The mask of an opcode, field by field (30_encoding.md R51, R52). -/
theorem mask_eq_packFields (op : Opcode) :
    op.mask = packFields 0xFF
      (match op with | .init | .clear | .wtext => 0xFF | .setcur | .sendcmd | .senddata | .wint => 0)
      (match op with | .setcur => 0 | .init | .clear | .sendcmd | .senddata | .wtext | .wint => 0xFF) 0xFF := by
  cases op <;> decide

/-- The match word of an opcode, field by field (30_encoding.md R52). -/
theorem matchWord_eq_packFields (op : Opcode) : op.matchWord = packFields op.code 0 0 0 := by
  cases op <;> decide

/-- What the mask check of an opcode says of the fields: Z is 0, and so is every field marked "must be 0"
(30_encoding.md R51, R52). -/
theorem mask_check_iff (op : Opcode) (w : Word) :
    w &&& op.mask = op.matchWord ↔
      fieldOP w = op.code ∧ fieldZ w = 0 ∧
      (op ≠ .setcur → fieldB w = 0) ∧
      (op = .init ∨ op = .clear ∨ op = .wtext → fieldA w = 0) := by
  have and_ones : ∀ x : Byte, x &&& 0xFF = x := fun x => by
    have : (0xFF : Byte) = BitVec.allOnes 8 := by decide
    rw [this, BitVec.and_allOnes]
  have and_zero : ∀ x : Byte, x &&& 0 = 0 := fun x => BitVec.and_zero
  conv => lhs; rw [← packFields_fields w, mask_eq_packFields, matchWord_eq_packFields, packFields_and, packFields_inj]
  cases op <;> simp only [and_ones, and_zero] <;> simp [and_comm, and_assoc]

/-- The opcode a byte names is the one with that code. -/
theorem opcodeOf_eq_some_iff (b : Byte) (op : Opcode) : opcodeOf b = some op ↔ b = op.code := by
  revert b; cases op <;> decide

@[simp] theorem opcodeOf_code (op : Opcode) : opcodeOf op.code = some op := (opcodeOf_eq_some_iff _ _).mpr rfl

/-- A byte names no opcode exactly when it is reserved (30_encoding.md R53). -/
theorem opcodeOf_eq_none_iff (b : Byte) : opcodeOf b = none ↔ b = 0 ∨ 8 ≤ b.toNat := by
  revert b; decide

/-- What the decoder answers (30_encoding.md R54). -/
theorem decode_eq_ok_iff (w : Word) (i : Instr) :
    decode w = .ok i ↔ ∃ op : Opcode, fieldOP w = op.code ∧ w &&& op.mask = op.matchWord ∧
      i = op.withFields (fieldA w) (fieldB w) := by
  unfold decode
  constructor
  · intro h
    split at h
    · cases h
    · rename_i op hop
      split at h
      · cases h; exact ⟨op, (opcodeOf_eq_some_iff _ _).mp hop, ‹_›, rfl⟩
      · cases h
  · rintro ⟨op, hop, hm, rfl⟩
    simp [hop, hm]

theorem decode_eq_reservedOpcode_iff (w : Word) :
    decode w = .error .reservedOpcode ↔ opcodeOf (fieldOP w) = none := by
  unfold decode
  split
  · simp [*]
  · rename_i op hop
    split <;> simp [hop]

theorem decode_eq_reservedField_iff (w : Word) :
    decode w = .error .reservedField ↔ ∃ op : Opcode, fieldOP w = op.code ∧ w &&& op.mask ≠ op.matchWord := by
  unfold decode
  split
  · rename_i hn
    constructor
    · intro h; cases h
    · rintro ⟨op, hop, _⟩; rw [hop, opcodeOf_code] at hn; cases hn
  · rename_i op hop
    rw [opcodeOf_eq_some_iff] at hop
    constructor
    · intro h
      refine ⟨op, hop, ?_⟩
      intro hm; rw [if_pos hm] at h; cases h
    · rintro ⟨op', hop', hm⟩
      have : op = op' := by
        have h := opcodeOf_code op
        rw [← hop, hop', opcodeOf_code] at h
        exact (Option.some.inj h).symm
      subst this
      rw [if_neg hm]

/-- The decoder gives no other code. -/
theorem decode_error_cases {w : Word} {e : CmdError} (h : decode w = .error e) :
    e = .reservedOpcode ∨ e = .reservedField := by
  unfold decode at h
  split at h
  · cases h; exact .inl rfl
  · split at h
    · cases h
    · cases h; exact .inr rfl

end Sys2Proof
end

