-- ==== Sys2Proof/Laws/Flags.lean ====
section
/-! SUPPORT. Laws of the STATUS word: what each of its bits reads as (10_state.md R15 to R20, R32). -/

namespace Sys2Proof.Machine

theorem flagBit_getLsbD (b : Bool) (i : Nat) : (flagBit b).getLsbD i = (decide (i = 0) && b) := by
  cases b
  · simp [flagBit]
  · simp [flagBit, BitVec.getLsbD_one]

/-- Every bit of the word STATUS reads as. -/
theorem statusWord_getLsbD (st : Status) (busy : Bool) (i : Nat) :
    (statusWord st busy).getLsbD i =
      (if i < 2 then st.state.code.getLsbD i
       else if i = 2 then busy
       else if i = 3 then st.busto
       else if i = 4 then st.cmdovr
       else if i = 5 then st.cmderr
       else if 8 ≤ i ∧ i < 12 then st.errcode.getLsbD (i - 8)
       else false) := by
  by_cases h : i < 12
  · have : i = 0 ∨ i = 1 ∨ i = 2 ∨ i = 3 ∨ i = 4 ∨ i = 5 ∨ i = 6 ∨ i = 7 ∨ i = 8 ∨ i = 9 ∨ i = 10 ∨ i = 11 := by omega
    rcases this with rfl | rfl | rfl | rfl | rfl | rfl | rfl | rfl | rfl | rfl | rfl | rfl <;>
      simp [statusWord, flagBit_getLsbD, -BitVec.getLsbD_eq_getElem]
  · have e₁ : st.errcode.getLsbD (i - 8) = false := BitVec.getLsbD_of_ge _ _ (by omega)
    have e₂ : st.state.code.getLsbD i = false := BitVec.getLsbD_of_ge _ _ (by omega)
    rw [if_neg (by omega), if_neg (by omega), if_neg (by omega), if_neg (by omega), if_neg (by omega), if_neg (by omega)]
    simp [statusWord, flagBit_getLsbD, -BitVec.getLsbD_eq_getElem, e₁, e₂]
    omega

/-- BUSY is bit 2 (10_state.md R15, R17). -/
@[simp] theorem statusWord_busy (st : Status) (busy : Bool) : (statusWord st busy).getLsbD 2 = busy := by
  simp only [statusWord_getLsbD]; simp

/-- The code of a display state is its two bits, and never 3 (10_state.md R16). -/
theorem dispState_code_ne_three (d : DispState) : d.code ≠ 3 := by cases d <;> decide

end Sys2Proof.Machine
end

