-- ==== Sys2Proof/Laws/Frame.lean ====
section
/-! SUPPORT. Laws of the frame serializer: the bits of a control nibble, and the shape of a frame (41_display_driver.md R68
to R71). -/

namespace Sys2Proof.Machine

variable (bl en rs : BitVec 1)

/-! ### The control nibble, bit by bit -/

@[simp] theorem ctl_bit0 : (ctl bl en rs)[0] = rs[0] := by revert bl en rs; decide
@[simp] theorem ctl_bit1 : (ctl bl en rs)[1] = false := by revert bl en rs; decide
@[simp] theorem ctl_bit2 : (ctl bl en rs)[2] = en[0] := by revert bl en rs; decide
@[simp] theorem ctl_bit3 : (ctl bl en rs)[3] = bl[0] := by revert bl en rs; decide
@[simp] theorem ctl_bit4 : (ctl bl en rs)[4] = false := by revert bl en rs; decide
@[simp] theorem ctl_bit5 : (ctl bl en rs)[5] = false := by revert bl en rs; decide
@[simp] theorem ctl_bit6 : (ctl bl en rs)[6] = false := by revert bl en rs; decide
@[simp] theorem ctl_bit7 : (ctl bl en rs)[7] = false := by revert bl en rs; decide

/-- A frame is four bytes (41_display_driver.md R70). -/
@[simp] theorem length_frameOf (b : Byte) : (frameOf bl b rs).length = Config.frameLen := rfl

end Sys2Proof.Machine
end

