-- ==== Sys2Proof/Laws/Memory.lean ====
section
/-! SUPPORT. Host memory: a store is read back, leaves every other address alone, and keeps the canonical form. -/

namespace Sys2Proof.Machine

theorem lookup_none_of_risingFrom {lo a : Nat} {m : Memory} (h : m.risingFrom lo = true) (ha : a < lo) :
    m.lookup a = none := by
  induction m generalizing lo with
  | nil => rfl
  | cons c m ih =>
    obtain ⟨k, b⟩ := c
    simp only [Memory.risingFrom, Bool.and_eq_true, decide_eq_true_eq] at h
    rw [Memory.lookup, if_neg (by omega)]
    exact ih h.2 (by omega)

theorem lookup_store_same (m : Memory) (a : Nat) (b : Byte) : (m.store a b).lookup a = some b := by
  induction m with
  | nil => simp [Memory.store, Memory.lookup]
  | cons c m ih =>
    obtain ⟨k, d⟩ := c
    unfold Memory.store
    split
    · simp [Memory.lookup]
    · split
      · simp [Memory.lookup]
      · rw [Memory.lookup, if_neg (by omega), ih]

theorem lookup_store_other (m : Memory) {a x : Nat} (b : Byte) (hx : x ≠ a) : (m.store a b).lookup x = m.lookup x := by
  induction m with
  | nil => simp [Memory.store, Memory.lookup, Ne.symm hx]
  | cons c m ih =>
    obtain ⟨k, d⟩ := c
    unfold Memory.store
    split
    · simp [Memory.lookup, Ne.symm hx]
    · split
      · subst_vars; simp [Memory.lookup, Ne.symm hx]
      · simp only [Memory.lookup, ih]

theorem store_risingFrom {lo a : Nat} {m : Memory} (b : Byte) (h : m.risingFrom lo = true) (hlo : lo ≤ a)
    (ha : a < 2 ^ 32) : (m.store a b).risingFrom lo = true := by
  induction m generalizing lo with
  | nil => simp [Memory.store, Memory.risingFrom]; omega
  | cons c m ih =>
    obtain ⟨k, d⟩ := c
    simp only [Memory.risingFrom, Bool.and_eq_true, decide_eq_true_eq] at h
    unfold Memory.store
    split
    · simp only [Memory.risingFrom, Bool.and_eq_true, decide_eq_true_eq]
      exact ⟨by omega, by omega, h.2⟩
    · split
      · subst_vars
        simp only [Memory.risingFrom, Bool.and_eq_true, decide_eq_true_eq]
        exact ⟨by omega, h.2⟩
      · simp only [Memory.risingFrom, Bool.and_eq_true, decide_eq_true_eq]
        exact ⟨h.1, ih h.2 (by omega)⟩

/-- Every store keeps the canonical form; it is the one operation that changes memory. -/
theorem store_wf {m : Memory} (a : Word) (b : Byte) (h : m.wf = true) : Memory.wf (m.store a.toNat b) = true :=
  store_risingFrom b h (Nat.zero_le _) a.isLt

/-- Host memory right after reset is in canonical form. -/
theorem reset_mem_wf : State.reset.mem.wf = true := rfl

/-- Memories in canonical form that hold the same byte at every address are the same list. -/
theorem eq_of_lookup_eq {lo : Nat} {m m' : Memory} (h : m.risingFrom lo = true) (h' : m'.risingFrom lo = true)
    (heq : ∀ a, m.lookup a = m'.lookup a) : m = m' := by
  induction m generalizing lo m' with
  | nil =>
    cases m' with
    | nil => rfl
    | cons c m' => have := heq c.1; simp [Memory.lookup] at this
  | cons c m ih =>
    obtain ⟨k, b⟩ := c
    cases m' with
    | nil => have := heq k; simp [Memory.lookup] at this
    | cons c' m' =>
      obtain ⟨k', b'⟩ := c'
      simp only [Memory.risingFrom, Bool.and_eq_true, decide_eq_true_eq] at h h'
      have hk : k = k' := by
        rcases Nat.lt_trichotomy k k' with hlt | he | hlt
        · have := heq k
          rw [Memory.lookup, if_pos rfl, Memory.lookup, if_neg (by omega),
            lookup_none_of_risingFrom h'.2 (by omega)] at this
          cases this
        · exact he
        · have := heq k'
          rw [Memory.lookup, if_neg (by omega), lookup_none_of_risingFrom h.2 (by omega),
            Memory.lookup, if_pos rfl] at this
          cases this
      subst hk
      have hb := heq k
      simp only [Memory.lookup, if_pos] at hb
      cases hb
      congr 1
      refine ih h.2 h'.2 fun a => ?_
      by_cases hak : k = a
      · subst hak
        rw [lookup_none_of_risingFrom h.2 (by omega), lookup_none_of_risingFrom h'.2 (by omega)]
      · have := heq a
        rwa [Memory.lookup, if_neg hak, Memory.lookup, if_neg hak] at this

/-- What the DPE reads depends on host memory and the admitted addresses only. -/
theorem memRead_congr {s t : State} (hp : t.params = s.params) (hm : t.mem = s.mem) (a : Word) :
    memRead t a = memRead s a := by
  rw [memRead, memRead, hp, hm]

/-- A byte stored at an admitted address is read back. -/
theorem memRead_storeByte_same (s : State) (a : Word) (b : Byte) (h : s.params.admits a = true) :
    memRead (storeByte s a b) a = some b := by
  simp [memRead, storeByte, h, lookup_store_same]

/-- A store changes the read of no other address. -/
theorem memRead_storeByte_other (s : State) {a x : Word} (b : Byte) (h : x ≠ a) :
    memRead (storeByte s a b) x = memRead s x := by
  have : x.toNat ≠ a.toNat := fun e => h (BitVec.eq_of_toNat_eq e)
  simp [memRead, storeByte, lookup_store_other _ _ this]

end Sys2Proof.Machine
end

