-- ==== Sys2Proof/Laws/State.lean ====
section
/-! SUPPORT. What each named update of the state leaves in each field: one lemma per field per update, true by rfl, so
that no proof unfolds a record update. -/

namespace Sys2Proof.Machine

variable (s : State)

/-! ### storeByte -/

@[simp] theorem storeByte_params (a : Word) (b : Byte) : (storeByte s a b).params = s.params := rfl
@[simp] theorem storeByte_arg (a : Word) (b : Byte) : (storeByte s a b).arg = s.arg := rfl
@[simp] theorem storeByte_status (a : Word) (b : Byte) : (storeByte s a b).status = s.status := rfl
@[simp] theorem storeByte_dpe (a : Word) (b : Byte) : (storeByte s a b).dpe = s.dpe := rfl
@[simp] theorem storeByte_dec (a : Word) (b : Byte) : (storeByte s a b).dec = s.dec := rfl
@[simp] theorem storeByte_host (a : Word) (b : Byte) : (storeByte s a b).host = s.host := rfl
@[simp] theorem storeByte_mem (a : Word) (b : Byte) : (storeByte s a b).mem = s.mem.store a.toNat b := rfl
@[simp] theorem storeByte_clock (a : Word) (b : Byte) : (storeByte s a b).clock = s.clock := rfl
@[simp] theorem storeByte_log (a : Word) (b : Byte) : (storeByte s a b).log = s.log := rfl
@[simp] theorem storeByte_events (a : Word) (b : Byte) : (storeByte s a b).events = s.events := rfl
@[simp] theorem storeByte_draws (a : Word) (b : Byte) : (storeByte s a b).draws = s.draws := rfl

/-! ### advance -/

@[simp] theorem advance_params (n : Nat) : (advance s n).params = s.params := rfl
@[simp] theorem advance_arg (n : Nat) : (advance s n).arg = s.arg := rfl
@[simp] theorem advance_status (n : Nat) : (advance s n).status = s.status := rfl
@[simp] theorem advance_dpe (n : Nat) : (advance s n).dpe = s.dpe := rfl
@[simp] theorem advance_dec (n : Nat) : (advance s n).dec = s.dec := rfl
@[simp] theorem advance_host (n : Nat) : (advance s n).host = s.host := rfl
@[simp] theorem advance_mem (n : Nat) : (advance s n).mem = s.mem := rfl
@[simp] theorem advance_clock (n : Nat) : (advance s n).clock = s.clock + n := rfl
@[simp] theorem advance_log (n : Nat) : (advance s n).log = s.log := rfl
@[simp] theorem advance_events (n : Nat) : (advance s n).events = s.events := rfl
@[simp] theorem advance_draws (n : Nat) : (advance s n).draws = s.draws := rfl

/-! ### observe -/

@[simp] theorem observe_params (o : Obs) : (observe s o).params = s.params := rfl
@[simp] theorem observe_arg (o : Obs) : (observe s o).arg = s.arg := rfl
@[simp] theorem observe_status (o : Obs) : (observe s o).status = s.status := rfl
@[simp] theorem observe_dpe (o : Obs) : (observe s o).dpe = s.dpe := rfl
@[simp] theorem observe_dec (o : Obs) : (observe s o).dec = s.dec := rfl
@[simp] theorem observe_host (o : Obs) : (observe s o).host = s.host := rfl
@[simp] theorem observe_mem (o : Obs) : (observe s o).mem = s.mem := rfl
@[simp] theorem observe_clock (o : Obs) : (observe s o).clock = s.clock := rfl
@[simp] theorem observe_log (o : Obs) : (observe s o).log = o :: s.log := rfl
@[simp] theorem observe_events (o : Obs) : (observe s o).events = s.events := rfl
@[simp] theorem observe_draws (o : Obs) : (observe s o).draws = s.draws := rfl

/-! ### raiseCmdError -/

@[simp] theorem raiseCmdError_params (e : CmdError) : (raiseCmdError e s).params = s.params := rfl
@[simp] theorem raiseCmdError_arg (e : CmdError) : (raiseCmdError e s).arg = s.arg := rfl
@[simp] theorem raiseCmdError_status (e : CmdError) : (raiseCmdError e s).status = s.status.recordError e := rfl
@[simp] theorem raiseCmdError_dpe (e : CmdError) : (raiseCmdError e s).dpe = s.dpe := rfl
@[simp] theorem raiseCmdError_dec (e : CmdError) : (raiseCmdError e s).dec = s.dec := rfl
@[simp] theorem raiseCmdError_host (e : CmdError) : (raiseCmdError e s).host = s.host := rfl
@[simp] theorem raiseCmdError_mem (e : CmdError) : (raiseCmdError e s).mem = s.mem := rfl
@[simp] theorem raiseCmdError_clock (e : CmdError) : (raiseCmdError e s).clock = s.clock := rfl
@[simp] theorem raiseCmdError_log (e : CmdError) : (raiseCmdError e s).log = s.log := rfl
@[simp] theorem raiseCmdError_events (e : CmdError) : (raiseCmdError e s).events = s.events := rfl
@[simp] theorem raiseCmdError_draws (e : CmdError) : (raiseCmdError e s).draws = s.draws := rfl

/-! ### overrun -/

@[simp] theorem overrun_params : (overrun s).params = s.params := rfl
@[simp] theorem overrun_arg : (overrun s).arg = s.arg := rfl
@[simp] theorem overrun_status : (overrun s).status = s.status.recordOverrun := rfl
@[simp] theorem overrun_dpe : (overrun s).dpe = s.dpe := rfl
@[simp] theorem overrun_dec : (overrun s).dec = s.dec := rfl
@[simp] theorem overrun_host : (overrun s).host = s.host := rfl
@[simp] theorem overrun_mem : (overrun s).mem = s.mem := rfl
@[simp] theorem overrun_clock : (overrun s).clock = s.clock := rfl
@[simp] theorem overrun_log : (overrun s).log = s.log := rfl
@[simp] theorem overrun_events : (overrun s).events = s.events := rfl
@[simp] theorem overrun_draws : (overrun s).draws = s.draws := rfl

/-! ### clearErrors -/

@[simp] theorem clearErrors_params (v : Word) : (clearErrors s v).params = s.params := rfl
@[simp] theorem clearErrors_arg (v : Word) : (clearErrors s v).arg = s.arg := rfl
@[simp] theorem clearErrors_status (v : Word) : (clearErrors s v).status = s.status.writeOneToClear v := rfl
@[simp] theorem clearErrors_dpe (v : Word) : (clearErrors s v).dpe = s.dpe := rfl
@[simp] theorem clearErrors_dec (v : Word) : (clearErrors s v).dec = s.dec := rfl
@[simp] theorem clearErrors_host (v : Word) : (clearErrors s v).host = s.host := rfl
@[simp] theorem clearErrors_mem (v : Word) : (clearErrors s v).mem = s.mem := rfl
@[simp] theorem clearErrors_clock (v : Word) : (clearErrors s v).clock = s.clock := rfl
@[simp] theorem clearErrors_log (v : Word) : (clearErrors s v).log = s.log := rfl
@[simp] theorem clearErrors_events (v : Word) : (clearErrors s v).events = s.events := rfl
@[simp] theorem clearErrors_draws (v : Word) : (clearErrors s v).draws = s.draws := rfl

/-! ### accept -/

@[simp] theorem accept_params (i : Instr) (q : List Item) (txt : Option Word) : (accept i q txt s).params = s.params := rfl
@[simp] theorem accept_arg (i : Instr) (q : List Item) (txt : Option Word) : (accept i q txt s).arg = s.arg := rfl
@[simp] theorem accept_status (i : Instr) (q : List Item) (txt : Option Word) : (accept i q txt s).status = s.status := rfl
@[simp] theorem accept_dpe (i : Instr) (q : List Item) (txt : Option Word) :
    (accept i q txt s).dpe =
      { s.dpe with argl := s.arg, curop := some i.opcode, q := q, txt := txt, phase := .issue } := rfl
@[simp] theorem accept_dec (i : Instr) (q : List Item) (txt : Option Word) : (accept i q txt s).dec = s.dec := rfl
@[simp] theorem accept_host (i : Instr) (q : List Item) (txt : Option Word) : (accept i q txt s).host = s.host := rfl
@[simp] theorem accept_mem (i : Instr) (q : List Item) (txt : Option Word) : (accept i q txt s).mem = s.mem := rfl
@[simp] theorem accept_clock (i : Instr) (q : List Item) (txt : Option Word) : (accept i q txt s).clock = s.clock := rfl
@[simp] theorem accept_log (i : Instr) (q : List Item) (txt : Option Word) :
    (accept i q txt s).log =
      .accepted i s.arg s.clock :: s.log := rfl
@[simp] theorem accept_events (i : Instr) (q : List Item) (txt : Option Word) : (accept i q txt s).events = s.events := rfl
@[simp] theorem accept_draws (i : Instr) (q : List Item) (txt : Option Word) : (accept i q txt s).draws = s.draws := rfl

/-! ### acceptInit -/

@[simp] theorem acceptInit_params (q : List Item) : (acceptInit q s).params = s.params := rfl
@[simp] theorem acceptInit_arg (q : List Item) : (acceptInit q s).arg = s.arg := rfl
@[simp] theorem acceptInit_status (q : List Item) : (acceptInit q s).status = { s.status with state := .initializing } := rfl
@[simp] theorem acceptInit_dpe (q : List Item) :
    (acceptInit q s).dpe =
      { s.dpe with argl := s.arg, curop := some .init, q := q, txt := none, t0 := s.now, dcur := Config.preWaitMs,
                   phase := .prewait } := rfl
@[simp] theorem acceptInit_dec (q : List Item) : (acceptInit q s).dec = s.dec := rfl
@[simp] theorem acceptInit_host (q : List Item) : (acceptInit q s).host = s.host := rfl
@[simp] theorem acceptInit_mem (q : List Item) : (acceptInit q s).mem = s.mem := rfl
@[simp] theorem acceptInit_clock (q : List Item) : (acceptInit q s).clock = s.clock := rfl
@[simp] theorem acceptInit_log (q : List Item) : (acceptInit q s).log = .accepted .init s.arg s.clock :: s.log := rfl
@[simp] theorem acceptInit_events (q : List Item) : (acceptInit q s).events = s.events := rfl
@[simp] theorem acceptInit_draws (q : List Item) : (acceptInit q s).draws = s.draws := rfl

/-! ### resetBlock -/

@[simp] theorem resetBlock_params : (resetBlock s).params = s.params := rfl
@[simp] theorem resetBlock_arg : (resetBlock s).arg = 0 := rfl
@[simp] theorem resetBlock_status : (resetBlock s).status = Status.reset := rfl
@[simp] theorem resetBlock_dpe : (resetBlock s).dpe = Dpe.reset := rfl
@[simp] theorem resetBlock_dec : (resetBlock s).dec = Dec.reset := rfl
@[simp] theorem resetBlock_host : (resetBlock s).host = s.host := rfl
@[simp] theorem resetBlock_mem : (resetBlock s).mem = s.mem := rfl
@[simp] theorem resetBlock_clock : (resetBlock s).clock = s.clock := rfl
@[simp] theorem resetBlock_log : (resetBlock s).log = .reset s.clock :: s.log := rfl
@[simp] theorem resetBlock_events : (resetBlock s).events = s.events := rfl
@[simp] theorem resetBlock_draws : (resetBlock s).draws = s.draws := rfl

/-! ### issueItem -/

@[simp] theorem issueItem_params (it : Item) : (issueItem it s).params = s.params := rfl
@[simp] theorem issueItem_arg (it : Item) : (issueItem it s).arg = s.arg := rfl
@[simp] theorem issueItem_status (it : Item) : (issueItem it s).status = s.status := rfl
@[simp] theorem issueItem_dpe (it : Item) :
    (issueItem it s).dpe =
      { s.dpe with frame := frameOf s.params.blLevel it.byte it.rs, phase := .xfer } := rfl
@[simp] theorem issueItem_dec (it : Item) : (issueItem it s).dec = s.dec := rfl
@[simp] theorem issueItem_host (it : Item) : (issueItem it s).host = s.host := rfl
@[simp] theorem issueItem_mem (it : Item) : (issueItem it s).mem = s.mem := rfl
@[simp] theorem issueItem_clock (it : Item) : (issueItem it s).clock = s.clock := rfl
@[simp] theorem issueItem_log (it : Item) : (issueItem it s).log = .tx (transactionOf s it) :: s.log := rfl
@[simp] theorem issueItem_events (it : Item) : (issueItem it s).events = s.events := rfl
@[simp] theorem issueItem_draws (it : Item) : (issueItem it s).draws = s.draws := rfl

/-! ### complete -/

@[simp] theorem complete_params : (complete s).params = s.params := rfl
@[simp] theorem complete_arg : (complete s).arg = s.arg := rfl
@[simp] theorem complete_status : (complete s).status = s.status.recordCompletion s.dpe.curop := rfl
@[simp] theorem complete_dpe : (complete s).dpe = { s.dpe with curop := none, phase := .idle } := rfl
@[simp] theorem complete_dec : (complete s).dec = s.dec := rfl
@[simp] theorem complete_host : (complete s).host = s.host := rfl
@[simp] theorem complete_mem : (complete s).mem = s.mem := rfl
@[simp] theorem complete_clock : (complete s).clock = s.clock := rfl
@[simp] theorem complete_log : (complete s).log = s.log := rfl
@[simp] theorem complete_events : (complete s).events = s.events := rfl
@[simp] theorem complete_draws : (complete s).draws = s.draws := rfl

/-! ### edgeStep -/

@[simp] theorem edgeStep_params : (edgeStep s).params = s.params := rfl
@[simp] theorem edgeStep_arg : (edgeStep s).arg = s.arg := rfl
@[simp] theorem edgeStep_status : (edgeStep s).status = s.status := rfl
@[simp] theorem edgeStep_dpe : (edgeStep s).dpe = s.dpe := rfl
@[simp] theorem edgeStep_dec : (edgeStep s).dec = { s.dec with pend := true } := rfl
@[simp] theorem edgeStep_host : (edgeStep s).host = s.host := rfl
@[simp] theorem edgeStep_mem : (edgeStep s).mem = s.mem := rfl
@[simp] theorem edgeStep_clock : (edgeStep s).clock = s.clock := rfl
@[simp] theorem edgeStep_log : (edgeStep s).log = s.log := rfl
@[simp] theorem edgeStep_events : (edgeStep s).events = s.events := rfl
@[simp] theorem edgeStep_draws : (edgeStep s).draws = s.draws := rfl

/-! ### answer -/

@[simp] theorem answer_params (v : Option Word) : (answer s v).params = s.params := rfl
@[simp] theorem answer_arg (v : Option Word) : (answer s v).arg = s.arg := rfl
@[simp] theorem answer_status (v : Option Word) : (answer s v).status = s.status := rfl
@[simp] theorem answer_dpe (v : Option Word) : (answer s v).dpe = s.dpe := rfl
@[simp] theorem answer_dec (v : Option Word) : (answer s v).dec = s.dec := rfl
@[simp] theorem answer_host (v : Option Word) : (answer s v).host = { s.host with rdata := v } := rfl
@[simp] theorem answer_mem (v : Option Word) : (answer s v).mem = s.mem := rfl
@[simp] theorem answer_clock (v : Option Word) : (answer s v).clock = s.clock := rfl
@[simp] theorem answer_log (v : Option Word) : (answer s v).log = s.log := rfl
@[simp] theorem answer_events (v : Option Word) : (answer s v).events = s.events := rfl
@[simp] theorem answer_draws (v : Option Word) : (answer s v).draws = s.draws := rfl

/-! ### refuseAccess -/

@[simp] theorem refuseAccess_params (op : HostOp) : (refuseAccess s op).params = s.params := rfl
@[simp] theorem refuseAccess_arg (op : HostOp) : (refuseAccess s op).arg = s.arg := rfl
@[simp] theorem refuseAccess_status (op : HostOp) : (refuseAccess s op).status = s.status := rfl
@[simp] theorem refuseAccess_dpe (op : HostOp) : (refuseAccess s op).dpe = s.dpe := rfl
@[simp] theorem refuseAccess_dec (op : HostOp) : (refuseAccess s op).dec = s.dec := rfl
@[simp] theorem refuseAccess_host (op : HostOp) :
    (refuseAccess s op).host =
      { s.host with refused := op :: s.host.refused } := rfl
@[simp] theorem refuseAccess_mem (op : HostOp) : (refuseAccess s op).mem = s.mem := rfl
@[simp] theorem refuseAccess_clock (op : HostOp) : (refuseAccess s op).clock = s.clock := rfl
@[simp] theorem refuseAccess_log (op : HostOp) : (refuseAccess s op).log = s.log := rfl
@[simp] theorem refuseAccess_events (op : HostOp) : (refuseAccess s op).events = s.events := rfl
@[simp] theorem refuseAccess_draws (op : HostOp) : (refuseAccess s op).draws = s.draws := rfl

/-! ### prepend -/

@[simp] theorem prepend_params (ops : List HostOp) : (prepend ops s).params = s.params := rfl
@[simp] theorem prepend_arg (ops : List HostOp) : (prepend ops s).arg = s.arg := rfl
@[simp] theorem prepend_status (ops : List HostOp) : (prepend ops s).status = s.status := rfl
@[simp] theorem prepend_dpe (ops : List HostOp) : (prepend ops s).dpe = s.dpe := rfl
@[simp] theorem prepend_dec (ops : List HostOp) : (prepend ops s).dec = s.dec := rfl
@[simp] theorem prepend_host (ops : List HostOp) : (prepend ops s).host = { s.host with prog := ops ++ s.host.prog } := rfl
@[simp] theorem prepend_mem (ops : List HostOp) : (prepend ops s).mem = s.mem := rfl
@[simp] theorem prepend_clock (ops : List HostOp) : (prepend ops s).clock = s.clock := rfl
@[simp] theorem prepend_log (ops : List HostOp) : (prepend ops s).log = s.log := rfl
@[simp] theorem prepend_events (ops : List HostOp) : (prepend ops s).events = s.events := rfl
@[simp] theorem prepend_draws (ops : List HostOp) : (prepend ops s).draws = s.draws := rfl

/-! ### issueOp -/

@[simp] theorem issueOp_params (op : HostOp) : (issueOp op s).params = s.params := rfl
@[simp] theorem issueOp_arg (op : HostOp) : (issueOp op s).arg = s.arg := rfl
@[simp] theorem issueOp_status (op : HostOp) : (issueOp op s).status = s.status := rfl
@[simp] theorem issueOp_dpe (op : HostOp) : (issueOp op s).dpe = s.dpe := rfl
@[simp] theorem issueOp_dec (op : HostOp) : (issueOp op s).dec = s.dec := rfl
@[simp] theorem issueOp_host (op : HostOp) : (issueOp op s).host = { s.host with prog := s.host.prog ++ [op] } := rfl
@[simp] theorem issueOp_mem (op : HostOp) : (issueOp op s).mem = s.mem := rfl
@[simp] theorem issueOp_clock (op : HostOp) : (issueOp op s).clock = s.clock := rfl
@[simp] theorem issueOp_log (op : HostOp) : (issueOp op s).log = s.log := rfl
@[simp] theorem issueOp_events (op : HostOp) : (issueOp op s).events = s.events := rfl
@[simp] theorem issueOp_draws (op : HostOp) : (issueOp op s).draws = s.draws := rfl

/-! ### offerWord -/

@[simp] theorem offerWord_params (w : Word) : (offerWord s w).params = s.params := rfl
@[simp] theorem offerWord_arg (w : Word) : (offerWord s w).arg = s.arg := rfl
@[simp] theorem offerWord_status (w : Word) : (offerWord s w).status = s.status := rfl
@[simp] theorem offerWord_dpe (w : Word) : (offerWord s w).dpe = s.dpe := rfl
@[simp] theorem offerWord_dec (w : Word) : (offerWord s w).dec = s.dec := rfl
@[simp] theorem offerWord_host (w : Word) :
    (offerWord s w).host =
      { s.host with prog := .wr 0 w :: s.host.prog } := rfl
@[simp] theorem offerWord_mem (w : Word) : (offerWord s w).mem = s.mem := rfl
@[simp] theorem offerWord_clock (w : Word) : (offerWord s w).clock = s.clock := rfl
@[simp] theorem offerWord_log (w : Word) : (offerWord s w).log = s.log := rfl
@[simp] theorem offerWord_events (w : Word) : (offerWord s w).events = .host :: s.events := rfl
@[simp] theorem offerWord_draws (w : Word) : (offerWord s w).draws = s.draws := rfl

/-! ### takeEvent: only the schedule moves on -/

@[simp] theorem takeEvent_params : s.takeEvent.params = s.params := by unfold State.takeEvent; split <;> rfl
@[simp] theorem takeEvent_arg : s.takeEvent.arg = s.arg := by unfold State.takeEvent; split <;> rfl
@[simp] theorem takeEvent_status : s.takeEvent.status = s.status := by unfold State.takeEvent; split <;> rfl
@[simp] theorem takeEvent_dpe : s.takeEvent.dpe = s.dpe := by unfold State.takeEvent; split <;> rfl
@[simp] theorem takeEvent_dec : s.takeEvent.dec = s.dec := by unfold State.takeEvent; split <;> rfl
@[simp] theorem takeEvent_host : s.takeEvent.host = s.host := by unfold State.takeEvent; split <;> rfl
@[simp] theorem takeEvent_mem : s.takeEvent.mem = s.mem := by unfold State.takeEvent; split <;> rfl
@[simp] theorem takeEvent_clock : s.takeEvent.clock = s.clock := by unfold State.takeEvent; split <;> rfl
@[simp] theorem takeEvent_log : s.takeEvent.log = s.log := by unfold State.takeEvent; split <;> rfl

@[simp] theorem takeEvent_now : s.takeEvent.now = s.now := by simp [State.now]

/-- Where the schedule names the next event, that event is taken off it. -/
theorem takeEvent_of_cons (e : Event) (es : List Event) (h : s.events = e :: es) :
    s.nextEvent = e ∧ s.takeEvent = { s with events := es } := by
  simp [State.nextEvent, State.takeEvent, h]

/-- Where it names none, one more event is drawn. -/
theorem takeEvent_of_nil (h : s.events = []) :
    s.nextEvent = Config.nextEvent s.draws ∧ s.takeEvent = { s with draws := s.draws + 1 } := by
  simp [State.nextEvent, State.takeEvent, h]

end Sys2Proof.Machine
end

