-- ==== Sys2Proof/Laws/Text.lean ====
section
/-! SUPPORT. Laws of the Integer-to-text Converter: how long its digits are and what they are (40_int_to_text.md). -/

namespace Sys2Proof.Machine

/-- The loop puts its digits before what it has. -/
theorem digitsLoop_append (fuel base m : Nat) (acc : List Byte) :
    digitsLoop fuel base m acc = digitsLoop fuel base m [] ++ acc := by
  induction fuel generalizing m acc with
  | zero => rfl
  | succ fuel ih =>
    unfold digitsLoop
    split
    · rfl
    · rw [ih _ (_ :: acc), ih _ [_]]; simp

/-- One round of the loop: the digits of the quotient, then the digit of the remainder. -/
theorem digitsLoop_succ (fuel base m : Nat) (hm : m ≠ 0) :
    digitsLoop (fuel + 1) base m [] = digitsLoop fuel base (m / base) [] ++ [digitByte (m % base)] := by
  rw [digitsLoop, if_neg hm, digitsLoop_append]

theorem digitsLoop_zero (fuel base : Nat) (acc : List Byte) : digitsLoop fuel base 0 acc = acc := by
  cases fuel <;> simp [digitsLoop]

/-- With fuel enough, a number has at most `k` digits exactly when it is below `base ^ k`. -/
theorem length_digitsLoop_le_iff {fuel base m : Nat} (k : Nat) (hb : 2 ≤ base) (hm : m < 2 ^ fuel) :
    (digitsLoop fuel base m []).length ≤ k ↔ m < base ^ k := by
  induction fuel generalizing m k with
  | zero =>
    have : m = 0 := by simpa using hm
    subst this
    simp [digitsLoop, Nat.pow_pos (show 0 < base by omega)]
  | succ fuel ih =>
    by_cases h : m = 0
    · subst h; simp [digitsLoop_zero, Nat.pow_pos (show 0 < base by omega)]
    · rw [digitsLoop_succ _ _ _ h, List.length_append, List.length_singleton]
      have hlt : m / base < 2 ^ fuel := by
        refine Nat.lt_of_le_of_lt (Nat.div_le_div_left hb (by omega)) ?_
        rw [Nat.div_lt_iff_lt_mul (by omega)]
        rw [Nat.pow_succ] at hm; exact hm
      cases k with
      | zero => simp; omega
      | succ k =>
        have := ih k hlt
        rw [Nat.pow_succ, Nat.add_le_add_iff_right, this, Nat.div_lt_iff_lt_mul (by omega)]

/-- Every digit is the byte of a number below the base. -/
theorem mem_digitsLoop {fuel base m : Nat} (hb : 2 ≤ base) {b : Byte} (h : b ∈ digitsLoop fuel base m []) :
    ∃ d, d < base ∧ b = digitByte d := by
  induction fuel generalizing m with
  | zero => simp [digitsLoop] at h
  | succ fuel ih =>
    by_cases hm : m = 0
    · subst hm; simp [digitsLoop_zero] at h
    · rw [digitsLoop_succ _ _ _ hm, List.mem_append, List.mem_singleton] at h
      rcases h with h | h
      · exact ih h
      · exact ⟨_, Nat.mod_lt _ (by omega), h⟩

/-- The first digit is not 0. -/
theorem head_digitsLoop {fuel base m : Nat} (hb : 2 ≤ base) (hm : m ≠ 0) (hf : m < 2 ^ fuel) :
    ∃ d rest, 0 < d ∧ d < base ∧ digitsLoop fuel base m [] = digitByte d :: rest := by
  induction fuel generalizing m with
  | zero => simp at hf; omega
  | succ fuel ih =>
    rw [digitsLoop_succ _ _ _ hm]
    by_cases h0 : m / base = 0
    · refine ⟨m % base, [], ?_, Nat.mod_lt _ (by omega), by rw [h0, digitsLoop_zero]; rfl⟩
      have := Nat.div_add_mod m base
      rw [h0] at this
      omega
    · have hlt : m / base < 2 ^ fuel := by
        refine Nat.lt_of_le_of_lt (Nat.div_le_div_left hb (by omega)) ?_
        rw [Nat.div_lt_iff_lt_mul (by omega)]
        rw [Nat.pow_succ] at hf; exact hf
      obtain ⟨d, rest, hd, hdb, he⟩ := ih h0 hlt
      exact ⟨d, rest ++ [digitByte (m % base)], hd, hdb, by rw [he]; rfl⟩

/-- A digit byte is not a sign, not a terminator, and shows its number (40_int_to_text.md R64). -/
theorem digitByte_toNat {d : Nat} (h : d < 36) :
    (digitByte d).toNat = if d ≤ 9 then 0x30 + d else 0x61 + (d - 10) := by
  unfold digitByte
  split <;> simp <;> omega

/-- What the converter answers, whole (40_int_to_text.md R61). -/
theorem intToText_eq_ok_iff {n : Word} {base : Nat} {text : List Byte} :
    intToText n base = .ok text ↔
      (0 ≤ n.toInt ∨ base = 10) ∧ text.length ≤ 11 ∧
      text = (if n.toInt < 0 then [0x2D#8] else []) ++ digits base n.toInt.natAbs := by
  unfold intToText
  by_cases h : n.toInt < 0 ∧ base ≠ 10
  · rw [if_pos h]
    constructor
    · intro h'; cases h'
    · rintro ⟨h' | h', _⟩ <;> omega
  · rw [if_neg h]
    dsimp only
    generalize (if n.toInt < 0 then [0x2D#8] else []) ++ digits base n.toInt.natAbs = s
    by_cases hl : s.length + 1 > Config.intBufCap
    · rw [if_pos hl]
      constructor
      · intro h'; cases h'
      · rintro ⟨_, h', rfl⟩; simp only [Config.intBufCap] at hl; omega
    · rw [if_neg hl]
      simp only [Config.intBufCap] at hl
      constructor
      · intro h'; cases h'; exact ⟨by omega, by omega, rfl⟩
      · rintro ⟨_, _, rfl⟩; rfl

theorem natAbs_toInt_lt (n : Word) : n.toInt.natAbs < 2 ^ 32 := by
  have := BitVec.le_toInt n
  have := BitVec.toInt_lt (x := n)
  omega

/-- A magnitude has at most `k` digits exactly when it is below `base ^ k`; 0 has one. -/
theorem length_digits_le_iff {base m k : Nat} (hb : 2 ≤ base) (hm : m < 2 ^ 32) (hk : 1 ≤ k) :
    (digits base m).length ≤ k ↔ m < base ^ k := by
  unfold digits
  split
  · subst_vars; simp [hk, Nat.pow_pos (show 0 < base by omega)]
  · exact length_digitsLoop_le_iff k hb hm

theorem one_le_length_digits {base m : Nat} (hb : 2 ≤ base) (hm : m < 2 ^ 32) : 1 ≤ (digits base m).length := by
  unfold digits
  split
  · simp
  · rename_i h
    obtain ⟨d, rest, -, -, he⟩ := head_digitsLoop hb h hm
    rw [he]; simp

/-- Every digit of a magnitude is the byte of a number below the base. -/
theorem mem_digits {base m : Nat} (hb : 2 ≤ base) {b : Byte} (h : b ∈ digits base m) : ∃ d, d < base ∧ b = digitByte d := by
  unfold digits at h
  split at h
  · exact ⟨0, by omega, by simpa [digitByte] using h⟩
  · exact mem_digitsLoop hb h

end Sys2Proof.Machine
end

