-- ==== Sys2Proof/Laws/Ops.lean ====
section
/-! SUPPORT. What each shared operation can do, once: the lemmas that claims about steps cite instead of unfolding them. -/

namespace Sys2Proof.Machine

theorem busy_iff (d : Dpe) : d.busy = true ↔ d.phase ≠ .idle := by simp [Dpe.busy]

theorem not_busy_iff (d : Dpe) : d.busy = false ↔ d.phase = .idle := by simp [Dpe.busy]

/-! ## The window -/

theorem blockBase_toNat (p : Params) : p.blockBase.toNat = p.windowNo.toNat * 0x20 := by
  have := BitVec.toNat_append p.windowNo 0#5
  rw [Params.blockBase, this]
  simp [Nat.shiftLeft_eq]

theorem slotOffset_toNat (k : BitVec 3) : (slotOffset k).toNat = 4 * k.toNat := by revert k; decide

theorem slotAddr_toNat (p : Params) (k : BitVec 3) : (p.slotAddr k).toNat = p.blockBase.toNat + 4 * k.toNat := by
  have h₁ := blockBase_toNat p
  have h₂ := p.windowNo.isLt
  have h₃ := k.isLt
  rw [Params.slotAddr, BitVec.toNat_add, slotOffset_toNat]
  omega

/-- A slot's address is its offset from BLOCK_BASE (20_memory.md R34, R35). -/
@[simp] theorem offsetOf_slotAddr (p : Params) (k : BitVec 3) : p.offsetOf (p.slotAddr k) = slotOffset k := by
  rw [Params.offsetOf, Params.slotAddr, BitVec.add_comm, BitVec.add_sub_cancel]

/-- Only a slot's address is at the slot's offset. -/
theorem eq_slotAddr_of_offsetOf {p : Params} {addr : Word} {k : BitVec 3} (h : p.offsetOf addr = slotOffset k) :
    addr = p.slotAddr k := by
  rw [Params.slotAddr, ← h, Params.offsetOf, BitVec.add_comm, BitVec.sub_add_cancel]

/-- The window is the 32 bytes from BLOCK_BASE on (20_memory.md R34). -/
theorem offsetOf_window_iff (p : Params) (addr : Word) : (p.offsetOf addr).extractLsb' 5 27 = 0#27 ↔
    p.blockBase.toNat ≤ addr.toNat ∧ addr.toNat < p.blockBase.toNat + 0x20 := by
  have h₁ := blockBase_toNat p
  have h₂ := p.windowNo.isLt
  have h₃ := addr.isLt
  rw [← BitVec.toNat_inj, BitVec.extractLsb'_toNat, Nat.shiftRight_eq_div_pow, Params.offsetOf, BitVec.toNat_sub]
  simp only [BitVec.toNat_ofNat]
  omega

/-- A 32-bit access of slot `k`'s offset reaches slot `k` (20_memory.md R35). -/
theorem target_slotOffset (k : BitVec 3) : target (slotOffset k) .word = .slot (slotAt k) := by revert k; decide

/-- A 32-bit access reaches a slot from the slot's offset only. -/
theorem target_eq_slot {off : Word} {width : Width} {slot : Slot} (h : target off width = .slot slot) :
    width = .word ∧ ∃ k : BitVec 3, off = slotOffset k ∧ slot = slotAt k := by
  unfold target at h
  split at h
  · rename_i hw
    split at h
    · rename_i ha
      refine ⟨ha.1, off.extractLsb' 2 3, ?_, (Target.slot.inj h).symm⟩
      have h₁ := congrArg BitVec.toNat hw
      have h₂ := congrArg BitVec.toNat ha.2
      apply BitVec.eq_of_toNat_eq
      simp only [BitVec.extractLsb'_toNat, Nat.shiftRight_eq_div_pow, BitVec.toNat_ofNat] at h₁ h₂
      rw [slotOffset_toNat, BitVec.extractLsb'_toNat, Nat.shiftRight_eq_div_pow]
      omega
    · cases h
  · cases h

@[simp] theorem wr_eq (k : BitVec 3) (v : Word) : HostOp.wr k v = .write (slotOffset k) .word v := rfl

/-! ## Commands -/

/-- A text that is accepted is a list of at most 11 items with their gaps. -/
theorem items_of_intToText {n : Word} {base : Nat} {text : List Byte} (h : intToText n base = .ok text) :
    (text.map dataItem).length ≤ 11 ∧ ∀ it ∈ text.map dataItem, Config.settleMs ≤ it.gap := by
  have := (intToText_eq_ok_iff.mp h).2.1
  refine ⟨by simpa using this, ?_⟩
  intro it hit
  obtain ⟨b, -, rfl⟩ := List.mem_map.mp hit
  exact Nat.le_refl _

theorem settle_le_cmdGap (b : Byte) : Config.settleMs ≤ cmdGap b := by
  unfold cmdGap
  split <;> decide

/-- The text source a command hands to the sequencer (41_display_driver.md R82 to R89). -/
def commandText (i : Instr) (arg : Word) : Option Word :=
  match i with
  | .wtext => some arg
  | _      => none

/-- What executing a command can do: CMDOVR while BUSY = 1, an error of WINT, or an accept with the command's items. -/
theorem exec_cases {i : Instr} {s t : State} (h : exec i s = .next t) :
    (s.dpe.phase ≠ .idle ∧ t = overrun s) ∨
    (s.dpe.phase = .idle ∧ ∃ e, t = raiseCmdError e s) ∨
    (s.dpe.phase = .idle ∧ i = .init ∧ t = acceptInit (commandItems i s.arg) s) ∨
    (s.dpe.phase = .idle ∧ i ≠ .init ∧ t = accept i (commandItems i s.arg) (commandText i s.arg) s) := by
  have key : ∀ take : State → State, offer take s = .next t →
      (s.dpe.phase ≠ .idle ∧ t = overrun s) ∨ (s.dpe.phase = .idle ∧ t = take s) := by
    intro take h
    unfold offer at h
    cases hb : s.dpe.busy with
    | true => rw [hb] at h; cases h; exact .inl ⟨(busy_iff _).mp hb, rfl⟩
    | false => rw [hb] at h; cases h; exact .inr ⟨(not_busy_iff _).mp hb, rfl⟩
  cases i with
  | init =>
    rcases key _ h with h | ⟨hp, rfl⟩
    · exact .inl h
    · exact .inr (.inr (.inl ⟨hp, rfl, rfl⟩))
  | wint base =>
    simp only [exec, execWint] at h
    rcases key _ h with h | ⟨hp, rfl⟩
    · exact .inl h
    · by_cases hb : baseInRange base = true
      · rw [if_pos hb]
        cases hc : intToText s.arg base.toNat with
        | error e => exact .inr (.inl ⟨hp, e, rfl⟩)
        | ok text =>
          refine .inr (.inr (.inr ⟨hp, by simp, ?_⟩))
          simp only [commandItems, hc, commandText]
      · rw [if_neg hb]; exact .inr (.inl ⟨hp, _, rfl⟩)
  | clear | setcur row col | sendcmd b | senddata b | wtext =>
    rcases key _ h with h | ⟨hp, rfl⟩
    · exact .inl h
    · exact .inr (.inr (.inr ⟨hp, by simp, rfl⟩))

/-- Executing a command always answers a next state. -/
theorem exec_next (i : Instr) (s : State) : ∃ t, exec i s = .next t := by
  cases i <;> exact ⟨_, rfl⟩

/-- A command's items are at most 11, each with a gap. -/
theorem commandItems_ok (i : Instr) (arg : Word) :
    (commandItems i arg).length ≤ 11 ∧ ∀ it ∈ commandItems i arg, Config.settleMs ≤ it.gap := by
  cases i with
  | init => exact (by decide : initItems.length ≤ 11 ∧ ∀ it ∈ initItems, Config.settleMs ≤ it.gap)
  | clear => exact (by decide : clearItems.length ≤ 11 ∧ ∀ it ∈ clearItems, Config.settleMs ≤ it.gap)
  | setcur row col => simp [commandItems, cmdItem, settle_le_cmdGap]
  | sendcmd b => simp [commandItems, cmdItem, settle_le_cmdGap]
  | senddata b => simp [commandItems, dataItem]
  | wtext => simp [commandItems]
  | wint base =>
    simp only [commandItems]
    cases h : intToText arg base.toNat with
    | ok text => exact items_of_intToText h
    | error e => simp

/-- An accepted command, before anything is sent, has its own items to send. -/
theorem commandSends_commandItems (i : Instr) (arg : Word) : CommandSends i arg (commandItems i arg) := by
  cases i <;> simp [CommandSends, commandItems]

/-- What a CMD write can do (41_display_driver.md R76). -/
theorem writeCmd_cases {w : Word} {s t : State} (h : writeCmd w s = .next t) :
    (s.dpe.phase ≠ .idle ∧ t = overrun s) ∨
    (s.dpe.phase = .idle ∧ ∃ e, t = raiseCmdError e s) ∨
    (s.dpe.phase = .idle ∧ t = acceptInit (commandItems .init s.arg) s) ∨
    (s.dpe.phase = .idle ∧ ∃ i, i ≠ .init ∧ t = accept i (commandItems i s.arg) (commandText i s.arg) s) := by
  unfold writeCmd at h
  cases hb : s.dpe.busy with
  | true => rw [hb] at h; cases h; exact .inl ⟨(busy_iff _).mp hb, rfl⟩
  | false =>
    have hp := (not_busy_iff _).mp hb
    rw [hb] at h
    simp only [Bool.false_eq_true, if_false] at h
    split at h
    · cases h; exact .inr (.inl ⟨hp, _, rfl⟩)
    · rename_i i _
      rcases exec_cases h with ⟨hn, -⟩ | ⟨-, e, rfl⟩ | ⟨-, rfl, rfl⟩ | ⟨-, hi, rfl⟩
      · exact absurd hp hn
      · exact .inr (.inl ⟨hp, e, rfl⟩)
      · exact .inr (.inr (.inl ⟨hp, rfl⟩))
      · exact .inr (.inr (.inr ⟨hp, i, hi, rfl⟩))

theorem writeCmd_next (w : Word) (s : State) : ∃ t, writeCmd w s = .next t := by
  unfold writeCmd
  split
  · exact ⟨_, rfl⟩
  · split
    · exact ⟨_, rfl⟩
    · exact exec_next _ _

/-! ## The sequencer and the transport -/

/-- What a DPE step can do (41_display_driver.md R77, R79, R80, R88). -/
theorem dpeStep_cases (s : State) :
    dpeStep s = s ∨
    ((s.dpe.phase = .prewait ∨ s.dpe.phase = .wait) ∧ s.dpe.dcur + 1 ≤ (s.now - s.dpe.t0).toNat ∧
      dpeStep s = { s with dpe := { s.dpe with phase := .issue } }) ∨
    (∃ it rest, s.dpe.phase = .issue ∧ s.dpe.q = it :: rest ∧ dpeStep s = issueItem it s) ∨
    (∃ a, s.dpe.phase = .issue ∧ s.dpe.q = [] ∧ s.dpe.txt = some a ∧
      ((memRead s a = some 0 ∧ dpeStep s = { s with dpe := { s.dpe with txt := none } }) ∨
        ∃ c, memRead s a = some c ∧ c ≠ 0 ∧
          dpeStep s = { s with dpe := { s.dpe with q := [dataItem c], txt := some (a + 1) } })) ∨
    (s.dpe.phase = .issue ∧ s.dpe.q = [] ∧ s.dpe.txt = none ∧ dpeStep s = complete s) := by
  have wait : ∀ p, s.dpe.phase = p → (p = .prewait ∨ p = .wait) → dpeStep s = waitStep s → (dpeStep s = s ∨
      (s.dpe.dcur + 1 ≤ (s.now - s.dpe.t0).toNat ∧ dpeStep s = { s with dpe := { s.dpe with phase := .issue } })) := by
    intro p _ _ h
    rw [h]
    unfold waitStep
    split
    · rename_i hw
      exact .inr ⟨of_decide_eq_true hw, rfl⟩
    · exact .inl rfl
  cases hp : s.dpe.phase with
  | idle => exact .inl (by simp [dpeStep, hp])
  | xfer => exact .inl (by simp [dpeStep, hp])
  | prewait =>
    rcases wait _ hp (.inl rfl) (by simp [dpeStep, hp]) with h | h
    · exact .inl h
    · exact .inr (.inl ⟨.inl rfl, h⟩)
  | wait =>
    rcases wait _ hp (.inr rfl) (by simp [dpeStep, hp]) with h | h
    · exact .inl h
    · exact .inr (.inl ⟨.inr rfl, h⟩)
  | issue =>
    cases hq : s.dpe.q with
    | cons it rest => exact .inr (.inr (.inl ⟨it, rest, rfl, rfl, by simp [dpeStep, hp, hq]⟩))
    | nil =>
      cases ht : s.dpe.txt with
      | none => exact .inr (.inr (.inr (.inr ⟨rfl, rfl, rfl, by simp [dpeStep, hp, hq, ht]⟩)))
      | some a =>
        have e : dpeStep s = textStep a s := by simp [dpeStep, hp, hq, ht]
        rw [e]
        unfold textStep
        cases hm : memRead s a with
        | none => exact .inl rfl
        | some c =>
          by_cases hc : c = 0
          · subst hc
            exact .inr (.inr (.inr (.inl ⟨a, rfl, rfl, rfl, .inl ⟨hm, by simp⟩⟩)))
          · exact .inr (.inr (.inr (.inl ⟨a, rfl, rfl, rfl, .inr ⟨c, hm, hc, if_neg hc⟩⟩)))

/-- What a DPE step can do to STATUS: only the completion of INIT writes it (41_display_driver.md R83). -/
theorem dpeStep_status (s : State) :
    (dpeStep s).status = s.status ∨
    ((dpeStep s).status = { s.status with state := .ready } ∧ s.dpe.curop = some .init ∧
      (dpeStep s).dpe.phase = .idle) := by
  rcases dpeStep_cases s with h | ⟨-, -, h⟩ | ⟨it, rest, -, -, h⟩ | ⟨a, -, -, -, ⟨-, h⟩ | ⟨c, -, -, h⟩⟩ | ⟨-, -, -, h⟩ <;>
    rw [h]
  case inr.inr.inr.inr =>
    unfold complete Status.recordCompletion
    split
    · exact .inr ⟨rfl, ‹_›, rfl⟩
    · exact .inl rfl
  all_goals exact .inl rfl

/-- What a return of the transport can do (41_display_driver.md R78). -/
theorem busReturn_cases (r : BusResult) (s : State) :
    busReturn r s = s ∨
    ∃ it rest, s.dpe.phase = .xfer ∧ s.dpe.q = it :: rest ∧
      busReturn r s = { s with
        status := s.status.recordReturn r
        dpe := { s.dpe with q := rest, t0 := s.now, dcur := it.gap, phase := .wait }
        log := recordTxReturn s.log s.clock r } := by
  unfold busReturn
  split
  · rename_i it rest hp hq
    exact .inr ⟨it, rest, hp, hq, rfl⟩
  · exact .inl rfl

/-- What a DEC step can do (42_edge_counter.md R92, R93). -/
theorem decStep_cases (s : State) :
    (s.dec.pend = false ∧ decStep s = s) ∨
    (s.dec.pend = true ∧ decStep s = { s with dec := s.dec.evaluate s.params.cntOvf s.now }) := by
  unfold decStep
  cases s.dec.pend <;> simp

/-! ## What the inner steps leave alone -/

/-- A DPE step touches the sequencer, STATUS and the observation only. -/
theorem dpeStep_frame (s : State) :
    (dpeStep s).params = s.params ∧ (dpeStep s).arg = s.arg ∧ (dpeStep s).dec = s.dec ∧ (dpeStep s).host = s.host ∧
    (dpeStep s).mem = s.mem ∧ (dpeStep s).clock = s.clock ∧ (dpeStep s).events = s.events ∧ (dpeStep s).draws = s.draws := by
  rcases dpeStep_cases s with h | ⟨-, -, h⟩ | ⟨it, rest, -, -, h⟩ | ⟨a, -, -, -, ⟨-, h⟩ | ⟨c, -, -, h⟩⟩ | ⟨-, -, -, h⟩ <;>
    simp [h]

/-- A return of the transport touches the sequencer, STATUS and the observation only. -/
theorem busReturn_frame (r : BusResult) (s : State) :
    (busReturn r s).params = s.params ∧ (busReturn r s).arg = s.arg ∧ (busReturn r s).dec = s.dec ∧
    (busReturn r s).host = s.host ∧ (busReturn r s).mem = s.mem ∧ (busReturn r s).clock = s.clock ∧
    (busReturn r s).events = s.events ∧ (busReturn r s).draws = s.draws := by
  rcases busReturn_cases r s with h | ⟨it, rest, -, -, h⟩ <;> simp [h]

/-- A DEC step touches the edge counter only. -/
theorem decStep_frame (s : State) :
    (decStep s).params = s.params ∧ (decStep s).arg = s.arg ∧ (decStep s).status = s.status ∧ (decStep s).dpe = s.dpe ∧
    (decStep s).host = s.host ∧ (decStep s).mem = s.mem ∧ (decStep s).clock = s.clock ∧ (decStep s).log = s.log ∧
    (decStep s).events = s.events ∧ (decStep s).draws = s.draws := by
  rcases decStep_cases s with ⟨-, h⟩ | ⟨-, h⟩ <;> simp [h]

/-! ## The host -/

/-- What a host access or poll can do to the machine, whatever it leaves with the host. -/
theorem hostStep_cases {s t : State} (h : hostStep s = .next t) :
    (∃ hs, t = { s with host := hs }) ∨
    (∃ hs v ops, s.writesNext .arg v ops ∧ t = { s with host := hs, arg := v }) ∨
    (∃ hs v ops, s.writesNext .status v ops ∧ t = clearErrors { s with host := hs } v) ∨
    (∃ w ops, s.writesNext .cmd w ops ∧ writeCmd w { s with host := { s.host with prog := ops } } = .next t) := by
  unfold hostStep at h
  split at h
  · cases h; exact .inl ⟨s.host, rfl⟩
  · rename_i op ops hprog
    cases op with
    | read off width =>
      cases h
      refine .inl ?_
      simp only [hostRead]
      split <;> exact ⟨_, rfl⟩
    | waitIdle =>
      cases h
      refine .inl ?_
      split <;> exact ⟨_, rfl⟩
    | poll last => cases h; exact .inl ⟨_, rfl⟩
    | write off width v =>
      simp only [runHostOp, hostWrite] at h
      split at h
      · rename_i k hk
        obtain ⟨hw, -⟩ := target_eq_slot hk
        subst hw
        cases k with
        | cmd => exact .inr (.inr (.inr ⟨v, ops, ⟨off, hprog, hk⟩, h⟩))
        | arg => cases h; exact .inr (.inl ⟨_, v, ops, ⟨off, hprog, hk⟩, rfl⟩)
        | status => cases h; exact .inr (.inr (.inl ⟨_, v, ops, ⟨off, hprog, hk⟩, rfl⟩))
        | count => cases h; exact .inl ⟨_, rfl⟩
        | edge => cases h; exact .inl ⟨_, rfl⟩
        | reserved => cases h; exact .inl ⟨_, rfl⟩
      · cases h; exact .inl ⟨_, rfl⟩
      · cases h; exact .inl ⟨_, rfl⟩

/-- A host step touches neither the edge counter nor the tick, host memory or the parameters. -/
theorem hostStep_frame {s t : State} (h : hostStep s = .next t) :
    t.params = s.params ∧ t.dec = s.dec ∧ t.mem = s.mem ∧ t.clock = s.clock ∧ t.events = s.events ∧ t.draws = s.draws := by
  rcases hostStep_cases h with ⟨hs, rfl⟩ | ⟨hs, v, ops, -, rfl⟩ | ⟨hs, v, ops, -, rfl⟩ | ⟨w, ops, -, hw⟩
  · simp
  · simp
  · simp
  · rcases writeCmd_cases hw with ⟨-, rfl⟩ | ⟨-, e, rfl⟩ | ⟨-, rfl⟩ | ⟨-, i, -, rfl⟩ <;> simp

/-- What a host step can do to STATUS (10_state.md R33). -/
theorem hostStep_status {s t : State} (h : hostStep s = .next t) :
    t.status = s.status ∨
    (∃ v ops, s.writesNext .status v ops ∧ t.status = s.status.writeOneToClear v) ∨
    ∃ w ops, s.writesNext .cmd w ops ∧
      ((s.dpe.phase ≠ .idle ∧ t.status = s.status.recordOverrun) ∨
       (s.dpe.phase = .idle ∧ ∃ e, t.status = s.status.recordError e) ∨
       (s.dpe.phase = .idle ∧ t.status = { s.status with state := .initializing } ∧ t.dpe.curop = some .init)) := by
  rcases hostStep_cases h with ⟨hs, rfl⟩ | ⟨hs, v, ops, -, rfl⟩ | ⟨hs, v, ops, ho, rfl⟩ | ⟨w, ops, ho, hw⟩
  · exact .inl rfl
  · exact .inl rfl
  · exact .inr (.inl ⟨v, ops, ho, rfl⟩)
  · rcases writeCmd_cases hw with ⟨hi, rfl⟩ | ⟨hi, e, rfl⟩ | ⟨hi, rfl⟩ | ⟨-, i, -, rfl⟩
    · exact .inr (.inr ⟨w, ops, ho, .inl ⟨hi, rfl⟩⟩)
    · exact .inr (.inr ⟨w, ops, ho, .inr (.inl ⟨hi, e, rfl⟩)⟩)
    · exact .inr (.inr ⟨w, ops, ho, .inr (.inr ⟨hi, rfl, rfl⟩)⟩)
    · exact .inl rfl

theorem hostStep_next (s : State) : ∃ t, hostStep s = .next t := by
  unfold hostStep
  split
  · exact ⟨_, rfl⟩
  · rename_i op ops _
    cases op with
    | read off width => exact ⟨_, rfl⟩
    | waitIdle => exact ⟨_, rfl⟩
    | poll last => exact ⟨_, rfl⟩
    | write off width v =>
      simp only [runHostOp, hostWrite]
      split
      · rename_i k _
        cases k
        · exact writeCmd_next _ _
        all_goals exact ⟨_, rfl⟩
      · exact ⟨_, rfl⟩
      · exact ⟨_, rfl⟩

end Sys2Proof.Machine
end

