-- ==== Sys2Proof/Laws/PerInstr.lean ====
section
/-! SUPPORT. Statements about every command as syntax, one lemma per constructor of `Instr`. -/

namespace Sys2Proof.Laws.Mask

/-- The word of a command passes the mask check of its own opcode and names that opcode (30_encoding.md R51, R52, R58). -/
def Statement (i : Instr) : Prop :=
  encode i &&& i.opcode.mask = i.opcode.matchWord ∧ opcodeOf (fieldOP (encode i)) = some i.opcode

theorem init : Statement .init := by unfold Statement; decide

theorem clear : Statement .clear := by unfold Statement; decide

theorem setcur (row col : Byte) : Statement (.setcur row col) :=
  ⟨(mask_check_iff _ _).mpr (by simp [encode, Instr.opcode, Opcode.code]), by simp [encode, Instr.opcode]; decide⟩

theorem sendcmd (b : Byte) : Statement (.sendcmd b) :=
  ⟨(mask_check_iff _ _).mpr (by simp [encode, Instr.opcode, Opcode.code]), by simp [encode, Instr.opcode]; decide⟩

theorem senddata (b : Byte) : Statement (.senddata b) :=
  ⟨(mask_check_iff _ _).mpr (by simp [encode, Instr.opcode, Opcode.code]), by simp [encode, Instr.opcode]; decide⟩

theorem wtext : Statement .wtext := by unfold Statement; decide

theorem wint (base : Byte) : Statement (.wint base) :=
  ⟨(mask_check_iff _ _).mpr (by simp [encode, Instr.opcode, Opcode.code]), by simp [encode, Instr.opcode]; decide⟩

end Sys2Proof.Laws.Mask
end

