-- ==== Sys2Proof/Laws/Step.lean ====
section
/-! SUPPORT. Laws of a step: which agent's step it is, and what each agent's step can do. -/

namespace Sys2Proof.Machine

/-- A step is the step of the agent whose event comes next. -/
theorem step_eq {s : State} {e : Event} (h : s.nextEvent = e) : step s = eventStep e s.takeEvent := by
  rw [step, h]

@[simp] theorem popped_params (s : State) (ops : List HostOp) : (s.popped ops).params = s.params := takeEvent_params s
@[simp] theorem popped_arg (s : State) (ops : List HostOp) : (s.popped ops).arg = s.arg := takeEvent_arg s
@[simp] theorem popped_status (s : State) (ops : List HostOp) : (s.popped ops).status = s.status := takeEvent_status s
@[simp] theorem popped_dpe (s : State) (ops : List HostOp) : (s.popped ops).dpe = s.dpe := takeEvent_dpe s
@[simp] theorem popped_dec (s : State) (ops : List HostOp) : (s.popped ops).dec = s.dec := takeEvent_dec s
@[simp] theorem popped_host (s : State) (ops : List HostOp) :
    (s.popped ops).host = { s.host with prog := ops } := rfl
@[simp] theorem popped_mem (s : State) (ops : List HostOp) : (s.popped ops).mem = s.mem := takeEvent_mem s
@[simp] theorem popped_clock (s : State) (ops : List HostOp) : (s.popped ops).clock = s.clock := takeEvent_clock s
@[simp] theorem popped_log (s : State) (ops : List HostOp) : (s.popped ops).log = s.log := takeEvent_log s

@[simp] theorem popped_events (s : State) (ops : List HostOp) : (s.popped ops).events = s.takeEvent.events := rfl
@[simp] theorem popped_draws (s : State) (ops : List HostOp) : (s.popped ops).draws = s.takeEvent.draws := rfl

/-- Taking the event off leaves the host's next operation. -/
@[simp] theorem takeEvent_writesNext (s : State) (k : Slot) (v : Word) (ops : List HostOp) :
    s.takeEvent.writesNext k v ops ↔ s.writesNext k v ops := by simp [State.writesNext]

/-- The host's step runs the next operation of its program. -/
theorem step_host {s : State} {op : HostOp} {ops : List HostOp} (he : s.nextEvent = .host)
    (hp : s.host.prog = op :: ops) : step s = runHostOp op (s.popped ops) := by
  rw [step_eq he, eventStep, hostStep]
  simp only [takeEvent_host, hp]
  rfl

/-- A WR of a slot is a write of that slot (30_encoding.md R59). -/
theorem step_wr {s : State} {k : BitVec 3} {v : Word} {ops : List HostOp} (he : s.nextEvent = .host)
    (hp : s.host.prog = .wr k v :: ops) : step s = writeSlot (slotAt k) v (s.popped ops) := by
  rw [step_host he hp]
  simp only [wr_eq, runHostOp, hostWrite, target_slotOffset]

/-- A command's word written to CMD executes the command, busy or not. -/
theorem writeCmd_of_decode {s : State} {w : Word} {i : Instr} (h : decode w = .ok i) : writeCmd w s = exec i s := by
  unfold writeCmd
  cases hb : s.dpe.busy with
  | false => simp [h]
  | true =>
    cases i <;>
      simp [exec, execInit, execClear, execSetcur, execSendcmd, execSenddata, execWtext, execWint, offer, hb]

/-- The step `withFetchWord` prepares is the CMD write of that word, on the state as it was. -/
theorem step_withFetchWord (s : State) (nbits w : Nat) :
    step (s.withFetchWord nbits w) = writeCmd (tableWord nbits w) s := by
  have h := step_wr (s := s.withFetchWord nbits w) (k := 0) (v := tableWord nbits w) (ops := s.host.prog) rfl rfl
  exact h

/-- Every step answers a next state. -/
theorem step_next (s : State) : ∃ t, step s = .next t := by
  unfold step eventStep
  split
  · exact hostStep_next _
  all_goals exact ⟨_, rfl⟩

/-- What a step can do, agent by agent. -/
theorem step_cases {s t : State} (h : step s = .next t) :
    (s.nextEvent = .host ∧ hostStep s.takeEvent = .next t) ∨
    (∃ op, s.nextEvent = .issue op ∧ t = issueOp op s.takeEvent) ∨
    (∃ a b, s.nextEvent = .store a b ∧ t = storeByte s.takeEvent a b) ∨
    (s.nextEvent = .dpe ∧ t = dpeStep s.takeEvent) ∨
    (s.nextEvent = .dec ∧ t = decStep s.takeEvent) ∨
    (s.nextEvent = .edge ∧ t = edgeStep s.takeEvent) ∨
    (∃ n, s.nextEvent = .tick n ∧ t = advance s.takeEvent n) ∨
    (∃ r, s.nextEvent = .bus r ∧ t = busReturn r s.takeEvent) ∨
    (s.nextEvent = .reset ∧ t = resetBlock s.takeEvent) := by
  unfold step at h
  cases he : s.nextEvent <;> rw [he] at h <;> simp only [eventStep] at h
  case host => exact .inl ⟨rfl, h⟩
  case store a b => cases h; exact .inr (.inr (.inl ⟨a, b, rfl, rfl⟩))
  all_goals cases h; simp

/-! ## Running a schedule -/

@[simp] theorem scheduled_nil (s : State) : s.scheduled [] = s := rfl

/-- The first scheduled event is the next step, on the state with the rest scheduled. -/
theorem step_scheduled_cons (s : State) (e : Event) (es : List Event) :
    step (s.scheduled (e :: es)) = eventStep e (s.scheduled es) := rfl

/-- A DPE step does not depend on the events still to come. -/
theorem dpeStep_scheduled (s : State) (es : List Event) : dpeStep (s.scheduled es) = (dpeStep s).scheduled es := by
  have hw : waitStep (s.scheduled es) = (waitStep s).scheduled es := by
    unfold waitStep
    show (if waitOver s.now s.dpe.t0 s.dpe.dcur = true then _ else _) = _
    split <;> rfl
  have ht : ∀ a, textStep a (s.scheduled es) = (textStep a s).scheduled es := by
    intro a
    unfold textStep
    have : memRead (s.scheduled es) a = memRead s a := rfl
    rw [this]
    cases memRead s a with
    | none => rfl
    | some c => dsimp only; split <;> rfl
  obtain ⟨params, arg, status, ⟨phase, curop, q, txt, argl, t0, dcur, frame⟩, dec, host, mem, clock, log, events, draws⟩ := s
  cases phase with
  | idle => rfl
  | xfer => rfl
  | prewait => exact hw
  | wait => exact hw
  | issue =>
    cases q with
    | cons it rest => rfl
    | nil =>
      cases txt with
      | none => rfl
      | some a => exact ht a

/-- Nor does a return of the transport. -/
theorem busReturn_scheduled (r : BusResult) (s : State) (es : List Event) :
    busReturn r (s.scheduled es) = (busReturn r s).scheduled es := by
  obtain ⟨params, arg, status, ⟨phase, curop, q, txt, argl, t0, dcur, frame⟩, dec, host, mem, clock, log, events, draws⟩ := s
  cases phase <;> cases q <;> rfl

/-- Nor does a command. -/
theorem exec_scheduled (i : Instr) {s t : State} (es : List Event) (h : exec i s = .next t) :
    exec i (s.scheduled es) = .next (t.scheduled es) := by
  have key : ∀ take : State → State, take (s.scheduled es) = (take s).scheduled es → offer take s = .next t →
      offer take (s.scheduled es) = .next (t.scheduled es) := by
    intro take ht h
    cases h
    unfold offer
    show Host.Outcome.next (if s.dpe.busy = true then _ else _) = _
    split
    · rfl
    · rw [ht]
  cases i with
  | wint base =>
    simp only [exec, execWint] at h ⊢
    refine key _ ?_ h
    have ha : (s.scheduled es).arg = s.arg := rfl
    rw [ha]
    cases baseInRange base with
    | false => rfl
    | true => cases intToText s.arg base.toNat <;> rfl
  | init | clear | setcur row col | sendcmd b | senddata b | wtext => exact key _ rfl h

/-- Nor does a CMD write. -/
theorem writeCmd_scheduled {w : Word} {s t : State} (es : List Event) (h : writeCmd w s = .next t) :
    writeCmd w (s.scheduled es) = .next (t.scheduled es) := by
  unfold writeCmd at h ⊢
  have e : (s.scheduled es).dpe.busy = s.dpe.busy := rfl
  rw [e]
  split at h
  · rename_i hb; rw [if_pos hb]; cases h; rfl
  · rename_i hb
    rw [if_neg hb]
    split at h
    · cases h; rfl
    · exact exec_scheduled _ es h

/-- Nor does a host step. -/
theorem hostStep_scheduled {s t : State} (es : List Event) (h : hostStep s = .next t) :
    hostStep (s.scheduled es) = .next (t.scheduled es) := by
  have he : (s.scheduled es).host = s.host := rfl
  rw [hostStep] at h
  rw [hostStep, he]
  cases hprog : s.host.prog with
  | nil => rw [hprog] at h; cases h; rfl
  | cons op ops =>
    rw [hprog] at h
    dsimp only at h ⊢
    cases op with
    | waitIdle =>
      cases h
      dsimp only [runHostOp]
      show Host.Outcome.next (if (readSlot s .status).getLsbD 2 = true then _ else _) =
        .next (State.scheduled (if (readSlot s .status).getLsbD 2 = true then _ else _) es)
      split <;> rfl
    | poll last => cases h; rfl
    | read off width =>
      cases h
      dsimp only [runHostOp, hostRead]
      cases target off width with
      | slot k => cases k <;> rfl
      | notAdmitted => rfl
      | elsewhere => rfl
    | write off width v =>
      dsimp only [runHostOp, hostWrite] at h ⊢
      cases hk : target off width with
      | slot k =>
        rw [hk] at h
        cases k with
        | cmd => exact writeCmd_scheduled es h
        | arg | status | count | edge | reserved => cases h; rfl
      | notAdmitted => rw [hk] at h; cases h; rfl
      | elsewhere => rw [hk] at h; cases h; rfl

/-- No agent's step depends on the events still to come. -/
theorem eventStep_scheduled {e : Event} {s t : State} (es : List Event) (h : eventStep e s = .next t) :
    eventStep e (s.scheduled es) = .next (t.scheduled es) := by
  cases e with
  | host => exact hostStep_scheduled es h
  | dpe => cases h; exact congrArg _ (dpeStep_scheduled s es)
  | bus r => cases h; exact congrArg _ (busReturn_scheduled r s es)
  | dec =>
    cases h
    show Host.Outcome.next (if s.dec.pend = true then _ else _) = .next (State.scheduled (if s.dec.pend = true then _ else _) es)
    split <;> rfl
  | issue op | store a b | edge | tick n | reset => cases h; rfl

/-- A run of one step more starts with that step. -/
theorem run_succ {s u : State} (k : Nat) (h : step s = .next u) :
    Sys2Proof.core.run (k + 1) s = Sys2Proof.core.run k u := by
  have e : Sys2Proof.core.step s = .next u := h
  exact (Host.Core.run.eq_2 ..).trans (by rw [e])

/-- A run of a schedule starts with the step of its first event. -/
theorem run_scheduled_cons {s u : State} {e : Event} {es : List Event}
    (h : eventStep e (s.scheduled es) = .next (u.scheduled es)) :
    Sys2Proof.core.run (e :: es).length (s.scheduled (e :: es)) =
      Sys2Proof.core.run es.length (u.scheduled es) :=
  run_succ es.length h

/-- A property every step keeps holds along every run of the machine. -/
theorem run_keeps {P : State → Prop} (keep : ∀ s t, P s → step s = .next t → P t) (k : Nat) {s t : State} (hs : P s)
    (h : Sys2Proof.core.run k s = .next t) : P t := by
  induction k generalizing s with
  | zero => cases h; exact hs
  | succ k ih =>
    obtain ⟨u, hu⟩ := step_next s
    exact ih (keep s u hs hu) ((run_succ k hu).symm.trans h)

/-! ## Runs in which the agents move in any order -/

theorem eventStep_next (e : Event) (s : State) : ∃ t, eventStep e s = .next t := by
  cases e with
  | host => exact hostStep_next s
  | issue op | store a b | dpe | dec | edge | tick n | bus r | reset => exact ⟨_, rfl⟩

/-- From every state the agents can move in every order (00_scope.md R8). -/
theorem exists_run (sched : Nat → Event) (s : State) : ∃ r, r 0 = s ∧ IsRun sched r :=
  ⟨Nat.rec s fun n u => (eventStep_next (sched n) u).choose, rfl,
    fun n => (eventStep_next (sched n) _).choose_spec⟩

/-- The machine, given the first `k` events of a run's order, runs its first `k` steps. -/
theorem IsRun.core_run {sched : Nat → Event} {r : Nat → State} (h : IsRun sched r) (k n : Nat) :
    Sys2Proof.core.run k ((r n).scheduled ((List.range' n k).map sched)) = .next (r (n + k)) := by
  induction k generalizing n with
  | zero => rfl
  | succ k ih =>
    have e := run_scheduled_cons (eventStep_scheduled ((List.range' (n + 1) k).map sched) (h n))
    have ih := ih (n + 1)
    rw [Nat.add_right_comm] at ih
    simp only [List.length_cons, List.length_map, List.length_range'] at e
    simp only [List.range'_succ, List.map_cons]
    exact e.trans ih

/-- Once set, PEND stays set until an evaluation or a reset. -/
theorem eventStep_keeps_pend {e : Event} {s t : State} (h : eventStep e s = .next t) (hd : e ≠ .dec) (hr : e ≠ .reset)
    (hp : s.dec.pend = true) : t.dec.pend = true := by
  cases e with
  | host => rw [(hostStep_frame h).2.1]; exact hp
  | dpe => cases h; rw [(dpeStep_frame s).2.2.1]; exact hp
  | bus r => cases h; rw [(busReturn_frame r s).2.2.1]; exact hp
  | edge => cases h; rfl
  | dec => exact absurd rfl hd
  | reset => exact absurd rfl hr
  | issue op | store a b | tick n => cases h; exact hp

/-- An evaluation with a pending edge, or a reset, clears PEND (42_edge_counter.md R93). -/
theorem eventStep_clears_pend {e : Event} {s t : State} (h : eventStep e s = .next t) (he : e = .dec ∨ e = .reset) :
    t.dec.pend = false := by
  rcases he with rfl | rfl <;> cases h
  · rcases decStep_cases s with ⟨hp, e⟩ | ⟨-, e⟩ <;> rw [e]
    · exact hp
    · rfl
  · rfl

/-- In a fair run every pending edge is evaluated, or lost in a reset (42_edge_counter.md R92, 70_reset_and_hazards.md R132). -/
theorem pending_edge_is_evaluated {sched : Nat → Event} {r : Nat → State} (h : IsRun sched r)
    (fair : FairToEvaluation sched r) {n : Nat} (hp : (r n).dec.pend = true) :
    ∃ m, n ≤ m ∧ (sched m = .dec ∨ sched m = .reset) ∧ (r m).dec.pend = true ∧ (r (m + 1)).dec.pend = false := by
  obtain ⟨k, hnk, hk⟩ := fair n hp
  obtain ⟨d, rfl⟩ := Nat.exists_eq_add_of_le hnk
  clear hnk
  induction d generalizing n with
  | zero => exact ⟨n, Nat.le_refl _, hk, hp, eventStep_clears_pend (h n) hk⟩
  | succ d ih =>
    by_cases hn : sched n = .dec ∨ sched n = .reset
    · exact ⟨n, Nat.le_refl _, hn, hp, eventStep_clears_pend (h n) hn⟩
    · have hp' := eventStep_keeps_pend (h n) (fun e => hn (.inl e)) (fun e => hn (.inr e)) hp
      obtain ⟨m, hm, rest⟩ := ih hp' (by rwa [Nat.add_assoc, Nat.add_comm 1 d])
      exact ⟨m, Nat.le_of_succ_le hm, rest⟩

end Sys2Proof.Machine
end

