-- ==== Sys2Proof/Tests/Slice0.lean ====
section
/-! SUPPORT. Small tests, each about one operation or one step. The expected values are those of the worked examples of the
rules and of spec/95_test_vectors.md, named at each test; none is the model's own answer. -/

namespace Sys2Proof.Tests

open Sys2Proof Sys2Proof.Machine

/-! ## A small machine -/

/-- The next state of an outcome. -/
def nextOf (o : Host.Outcome State Fault Refusal) : Option State :=
  match o with
  | .next t    => some t
  | .fault _   => none
  | .refused _ => none

/-- A machine after reset with every open parameter fixed: window at 0x40000000, backlight 1, WRAP, and the page at
0x20000000 admitted; the tick is 1000. -/
def base : State :=
  { State.reset with
    params := { windowNo := 0x2000000, blLevel := 1, cntOvf := .wrap, admitted := [⟨0x20000000, 0x1000⟩] }
    clock  := 1000 }

/-- `base` with ARG = `v`. -/
def withArg (v : Word) : State := { base with arg := v }

/-- `base` with the event `e` scheduled. -/
def onEvent (e : Event) (s : State) : State := s.scheduled [e]

/-- `base` about to take the host operation `op`. -/
def onHost (op : HostOp) (s : State) : State := { s.scheduled [.host] with host := { s.host with prog := [op] } }

/-- `base` with the sequencer in `phase`, with the items `q` and the text pointer `txt`. -/
def inPhase (phase : Phase) (q : List Item) (txt : Option Word) : State :=
  { base with dpe := { base.dpe with phase := phase, q := q, txt := txt } }

/-- The items a command builds and the phase it leaves, from `base` with ARG = `v`. -/
def itemsOf (i : Instr) (v : Word) : Option (Phase × List (Byte × BitVec 1 × Nat)) :=
  (nextOf (exec i (withArg v))).map fun t => (t.dpe.phase, t.dpe.q.map fun it => (it.byte, it.rs, it.gap))

/-- CMDERR, ERRCODE, the phase and the number of observations after the word `w` is written to CMD with ARG = `v`. -/
def afterWord (w v : Word) : Option (Bool × BitVec 4 × Phase × Nat) :=
  (nextOf (writeCmd w (withArg v))).map fun t => (t.status.cmderr, t.status.errcode, t.dpe.phase, t.log.length)

/-! ## Well-formed commands -/

/-- WINT's base is checked: 40_int_to_text.md R62. -/
theorem test_wellFormed_refuses_bad_base :
    Instr.wellFormed (.wint 0) = false ∧ Instr.wellFormed (.wint 1) = false ∧
    Instr.wellFormed (.wint 37) = false ∧ Instr.wellFormed (.wint 255) = false ∧
    Instr.wellFormed (.wint 2) = true ∧ Instr.wellFormed (.wint 36) = true := by decide

/-! ## Words, written out from the fields of 30_encoding.md R50 and R51: Z, B, A, OP -/

theorem test_decode_init     : decode 0b00000000_00000000_00000000_00000001 = .ok .init := rfl
theorem test_decode_clear    : decode 0b00000000_00000000_00000000_00000010 = .ok .clear := rfl
theorem test_decode_setcur   : decode 0b00000000_00000101_00000001_00000011 = .ok (.setcur 1 5) := rfl
theorem test_decode_sendcmd  : decode 0b00000000_00000000_00001100_00000100 = .ok (.sendcmd 0x0C) := rfl
theorem test_decode_senddata : decode 0b00000000_00000000_01000001_00000101 = .ok (.senddata 0x41) := rfl
theorem test_decode_wtext    : decode 0b00000000_00000000_00000000_00000110 = .ok .wtext := rfl
theorem test_decode_wint     : decode 0b00000000_00000000_00001010_00000111 = .ok (.wint 10) := rfl

/-- V-D-4 to V-D-10, V-D-14: a must-be-zero field, and the opcode check before it. -/
theorem test_decode_rejects :
    decode 0xFF000009 = .error .reservedOpcode ∧ decode 0x00000101 = .error .reservedField ∧
    decode 0x01000002 = .error .reservedField ∧ decode 0x01000003 = .error .reservedField ∧
    decode 0x00010004 = .error .reservedField ∧ decode 0x00010005 = .error .reservedField ∧
    decode 0x00000106 = .error .reservedField ∧ decode 0x01002507 = .error .reservedField :=
  ⟨rfl, rfl, rfl, rfl, rfl, rfl, rfl, rfl⟩

/-! ## Commands (vectors of 95_test_vectors.md section 2.4) -/

/-- 41_display_driver.md R82. -/
theorem test_init_items : itemsOf .init 0 = some (.prewait,
    [(0x30, 0, 50), (0x30, 0, 5), (0x30, 0, 10), (0x20, 0, 10), (0x28, 0, 1), (0x08, 0, 2), (0x01, 0, 2), (0x06, 0, 1),
     (0x0C, 0, 1)]) := by decide

/-- 43_host_interface.md R102: after INIT on an idle block STATUS reads 0x00000005. -/
theorem test_init_status : (nextOf (exec .init base)).map (readSlot · .status) = some 0x00000005 := by decide

/-- V-C-2. -/
theorem test_clear_items : itemsOf .clear 0 = some (.issue, [(0x01, 0, 2)]) := by decide

/-- V-SC-5: the OR is not masked. -/
theorem test_setcur_unmasked : itemsOf (.setcur 0 0x45) 0 = some (.issue, [(0xC5, 0, 1)]) := by decide

/-- V-SC-8: another row sends the column as it is, here a clear with its longer gap. -/
theorem test_setcur_quirk : itemsOf (.setcur 2 1) 0 = some (.issue, [(0x01, 0, 2)]) := by decide

/-- V-SCMD-4 and V-SCMD-5: the gaps on both sides of 41_display_driver.md R74. -/
theorem test_sendcmd_gaps :
    itemsOf (.sendcmd 0x03) 0 = some (.issue, [(0x03, 0, 2)]) ∧
    itemsOf (.sendcmd 0x00) 0 = some (.issue, [(0x00, 0, 1)]) := by decide

/-- V-SD-2: 0x00 is sent, and its gap is 1. -/
theorem test_senddata_zero : itemsOf (.senddata 0x00) 0 = some (.issue, [(0x00, 1, 1)]) := by decide

/-- 41_display_driver.md R88: no item at accept, and the pointer at ARG. -/
theorem test_wtext_pointer :
    (nextOf (exec .wtext (withArg 0xFFFFFFFF))).map (fun t => (t.dpe.phase, t.dpe.q, t.dpe.txt)) =
      some (.issue, [], some 0xFFFFFFFF) := by decide

/-- V-WI-4: "-7". -/
theorem test_wint_negative : itemsOf (.wint 10) 0xFFFFFFF9 = some (.issue, [(0x2D, 1, 1), (0x37, 1, 1)]) := by decide

/-- V-D-12, V-D-16, V-D-17, V-D-18: WINT's checks in the order of 60_exceptions.md R118. -/
theorem test_wint_checks :
    afterWord 0x00000107 5 = some (true, 3, .idle, 0) ∧
    afterWord 0x00001007 0xFFFFFFFF = some (true, 4, .idle, 0) ∧
    afterWord 0x00000207 0xFFFFFFFF = some (true, 4, .idle, 0) ∧
    afterWord 0x00000207 0x800 = some (true, 5, .idle, 0) := by decide

/-- V-D-22: the first code is kept. -/
theorem test_first_error_is_kept :
    ((nextOf (writeCmd 0x00000009 base)).bind fun s => nextOf (writeCmd 0x01000001 s)).map
      (fun t => (t.status.cmderr, t.status.errcode)) = some (true, 1) := by decide

/-- V-D-23: while BUSY = 1 an ill-formed word only sets CMDOVR. -/
theorem test_overrun : nextOf (writeCmd 0x00000000 (inPhase .wait [] none)) =
    some { inPhase .wait [] none with status := { base.status with cmdovr := true } } := by decide

/-! ## Operands (sections 2.1, 2.2, 2.5) -/

/-- V-FR-3 and V-FR-18, at both backlight levels. -/
theorem test_frames :
    frameOf 1 0x28 0 = [0x2C, 0x28, 0x8C, 0x88] ∧ frameOf 0 0x28 0 = [0x24, 0x20, 0x84, 0x80] ∧
    frameOf 1 0x41 1 = [0x4D, 0x49, 0x1D, 0x19] ∧ frameOf 0 0x41 1 = [0x45, 0x41, 0x15, 0x11] := by decide

/-- V-W-5 to V-W-8: waits across the wrap of the tick. -/
theorem test_waits :
    waitOver 0x00000000 0xFFFFFFFF 1 = false ∧ waitOver 0x00000001 0xFFFFFFFF 1 = true ∧
    waitOver 0x00000022 0xFFFFFFF0 50 = false ∧ waitOver 0x00000023 0xFFFFFFF0 50 = true := by decide

/-- V-I-13, V-I-15, V-I-11: "-2147483648", "zik0zj", "202". -/
theorem test_texts :
    intToText 0x80000000 10 = .ok [0x2D, 0x32, 0x31, 0x34, 0x37, 0x34, 0x38, 0x33, 0x36, 0x34, 0x38] ∧
    intToText 0x7FFFFFFF 36 = .ok [0x7A, 0x69, 0x6B, 0x30, 0x7A, 0x6A] ∧
    intToText 100 7 = .ok [0x32, 0x30, 0x32] := ⟨rfl, rfl, rfl⟩

/-- V-I-20, V-I-21: the largest text of 11 characters in base 3, and the first too long. -/
theorem test_text_capacity :
    intToText 177146 3 = .ok (List.replicate 11 0x32) ∧ intToText 177147 3 = .error .convOverflow := ⟨rfl, rfl⟩

/-- V-DEC-4, V-DEC-5: the window across the wrap of the tick, and V-DEC-9: CNT_OVF. -/
theorem test_evaluations :
    Dec.evaluate .wrap 0x00000019 ⟨true, 0, 0xFFFFFFF0⟩ = ⟨false, 1, 0x00000019⟩ ∧
    Dec.evaluate .wrap 0x00000018 ⟨true, 0, 0xFFFFFFF0⟩ = ⟨false, 0, 0x00000018⟩ ∧
    Dec.evaluate .wrap 1100 ⟨true, 0x7FFFFFFF, 1000⟩ = ⟨false, 0x80000000, 1100⟩ ∧
    Dec.evaluate .saturate 1100 ⟨true, 0x7FFFFFFF, 1000⟩ = ⟨false, 0x7FFFFFFF, 1100⟩ := by decide

/-- 43_host_interface.md R104's example: 0x338, then a write of 0x20, reads 0x18. -/
theorem test_status_write_one_to_clear :
    let st : Status := ⟨.uninit, true, true, true, 3⟩
    statusWord st false = 0x338 ∧ statusWord (st.writeOneToClear 0x20) false = 0x18 := by decide

/-- 20_memory.md R36: a byte access and a misaligned one are refused, a word access is not. -/
theorem test_access_widths :
    target (base.params.offsetOf 0x40000004) .word = .slot .arg ∧
    target (base.params.offsetOf 0x40000004) .half = .notAdmitted ∧
    target (base.params.offsetOf 0x40000006) .word = .notAdmitted ∧
    target (base.params.offsetOf 0x40000020) .word = .elsewhere := by decide

/-- 41_display_driver.md R88: the text pointer wraps from 0xFFFFFFFF to 0 (vector V-WT-3). -/
theorem test_text_wraps :
    let s : State := { inPhase .issue [] (some 0xFFFFFFFF) with
      params := { base.params with admitted := [⟨0, 2 ^ 32⟩] }, mem := [(0, 0), (0xFFFFFFFF, 0x41)] }
    ((dpeStep s).dpe.q, (dpeStep s).dpe.txt) = ([⟨0x41, 1, 1⟩], some 0) := by decide

/-- A store keeps the canonical form, and the order of two stores does not show. -/
theorem test_memory_canonical :
    (storeByte (storeByte base 5 1) 3 2).mem = (storeByte (storeByte base 3 2) 5 1).mem ∧
    (storeByte (storeByte base 5 1) 3 2).mem.wf = true := by decide

/-- The step `withFetchWord` prepares runs the command as the first step after reset. -/
theorem test_withFetchWord_runs_first :
    step (State.reset.withFetchWord 32 0x00000002) = exec .clear State.reset := rfl

/-- More than 32 bits are no command; 32 bits of the table's numbering are the word itself (30_encoding.md R57). -/
theorem test_decodeTableWord : decodeTableWord 32 0x00050103 = some (.setcur 1 5) ∧ decodeTableWord 40 1 = none := by decide

/-! ## Witnesses: for each obligation with hypotheses, a state and operands that meet all of them, each clause at a boundary -/

/-- `base` about to write `v` to slot `k`. -/
def onWrite (k : BitVec 3) (v : Word) : State := onHost (.wr k v) base

/-- StepRunsTheWrittenCommand, each clause: a command's word, and a word the decoder rejects. -/
theorem test_meets_StepRunsTheWrittenCommand :
    ((onWrite 0 0x00050003).nextEvent = .host ∧
      (onWrite 0 0x00050003).host.prog = .wr 0 0x00050003 :: [] ∧
      decode 0x00050003 = .ok (.setcur 0 5)) ∧
    ((onWrite 0 8).nextEvent = .host ∧ (onWrite 0 8).host.prog = .wr 0 8 :: [] ∧ decode 8 = .error .reservedOpcode) ∧
    decodeTableWord 32 0x00050003 = some (.setcur 0 5) := ⟨⟨rfl, rfl, rfl⟩, ⟨rfl, rfl, rfl⟩, rfl⟩

/-- BusyCmdWriteOnlySetsOverrun: every phase but IDLE. -/
theorem test_meets_BusyCmdWriteOnlySetsOverrun : ∀ phase ∈ [Phase.prewait, .issue, .xfer, .wait],
    (inPhase phase [] none).dpe.phase ≠ .idle := by decide

/-- RejectedWordRecordsFirstCode: the decoder's rejections, a bad base on each side of 2 to 36, and both errors of the
conversion. -/
theorem test_meets_RejectedWordRecordsFirstCode :
    base.dpe.phase = .idle ∧ decode 0x00000008 = .error .reservedOpcode ∧ decode 0x00000101 = .error .reservedField ∧
    (decode 0x00000107 = .ok (.wint 1) ∧ baseInRange 1 = false) ∧
    (decode 0x00002507 = .ok (.wint 37) ∧ baseInRange 37 = false) ∧
    (decode 0x00002407 = .ok (.wint 36) ∧ baseInRange 36 = true ∧
      intToText (withArg 0xFFFFFFFF).arg 36 = .error .convUndefined) ∧
    (decode 0x00000207 = .ok (.wint 2) ∧ baseInRange 2 = true ∧
      intToText (withArg 0x800).arg 2 = .error .convOverflow) :=
  ⟨rfl, rfl, rfl, ⟨rfl, rfl⟩, ⟨rfl, rfl⟩, ⟨rfl, rfl, rfl⟩, rfl, rfl, rfl⟩

/-- ReservedOpcodeSendsNothing: OP 0x00, 0x08 and 0xFF, on an idle block with CMDERR 0. -/
theorem test_meets_ReservedOpcodeSendsNothing :
    fieldOP 0x00000000 = 0 ∧ 8 ≤ (fieldOP 0x00000008).toNat ∧ 8 ≤ (fieldOP 0x000000FF).toNat ∧
    base.dpe.phase = .idle ∧ base.status.cmderr = false := by decide

/-- InitIsAccepted, WtextIsAccepted, OneByteCommandsAreAccepted and SetcurIsAccepted: an idle block; for the last two, the
bytes at the edges of the clear and return-home range and the rows 0, 1 and the others. -/
theorem test_meets_accepted :
    base.dpe.phase = .idle ∧
    (Instr.sendcmd 3 = .sendcmd 3 ∧ (⟨3, 0, 2⟩ : Item) = ⟨3, 0, if (3 : Byte) = 1 ∨ (3 : Byte) = 2 ∨ (3 : Byte) = 3 then 2 else 1⟩) ∧
    (⟨4, 0, 1⟩ : Item) = ⟨4, 0, if (4 : Byte) = 1 ∨ (4 : Byte) = 2 ∨ (4 : Byte) = 3 then 2 else 1⟩ ∧
    (0 : Byte) = 0 ∧ (1 : Byte) = 1 ∧ ((2 : Byte) ≠ 0 ∧ (2 : Byte) ≠ 1) := by decide

/-- WintIsAccepted: bases 2 and 36, the largest value of base 2, and the least value in base 10. -/
theorem test_meets_WintIsAccepted :
    (withArg 0x7FF).dpe.phase = .idle ∧
    (2 ≤ (2 : Byte).toNat ∧ (2 : Byte).toNat ≤ 36 ∧ 0 ≤ (withArg 0x7FF).arg.toInt ∧ (withArg 0x7FF).arg.toInt < 2 ^ 11) ∧
    (2 ≤ (36 : Byte).toNat ∧ (36 : Byte).toNat ≤ 36 ∧ (withArg 0x7FFFFFFF).arg.toInt < 36 ^ 11) ∧
    ((10 : Byte).toNat = 10 ∧ (withArg 0x80000000).arg.toInt < 10 ^ 11) := by decide

/-- WintIsRejectedInOrder: each of its three cases. -/
theorem test_meets_WintIsRejectedInOrder :
    ¬ (2 ≤ (1 : Byte).toNat ∧ (1 : Byte).toNat ≤ 36) ∧ ¬ (2 ≤ (37 : Byte).toNat ∧ (37 : Byte).toNat ≤ 36) ∧
    ((withArg 0xFFFFFFFF).arg.toInt < 0 ∧ (2 : Byte).toNat ≠ 10) ∧
    (0 ≤ (withArg 0x800).arg.toInt ∧ (2 : Int) ^ 11 ≤ (withArg 0x800).arg.toInt) := by decide

/-- CommandsLeaveTheRestAlone, and its clause for a command other than INIT. -/
theorem test_meets_CommandsLeaveTheRestAlone :
    (∃ t, exec .init base = .next t) ∧ (∃ t, exec .clear base = .next t) ∧ Instr.clear ≠ .init :=
  ⟨⟨_, rfl⟩, ⟨_, rfl⟩, by decide⟩

/-- TextOfIntegerReadsBack, DigitsAreOfTheBase and SignIsShownExactlyWhenNegative: bases 2 and 36, zero, and a negative value
in base 10. -/
theorem test_meets_texts :
    intToText 0x7FF 2 = .ok (List.replicate 11 0x31) ∧ intToText 35 36 = .ok [0x7A] ∧ intToText 0 2 = .ok [0x30] ∧
    (intToText 0xFFFFFFF9 10 = .ok [0x2D, 0x37] ∧ (0xFFFFFFF9 : Word).toInt < 0) := ⟨rfl, rfl, rfl, rfl, by decide⟩

/-- ConversionFailsExactlyWhen and ZeroIsOneCharacter: bases 2 and 36, with an error in each. -/
theorem test_meets_ConversionFailsExactlyWhen :
    (2 ≤ 2 ∧ 2 ≤ 36 ∧ intToText 0x800 2 = .error .convOverflow) ∧
    (2 ≤ 36 ∧ 36 ≤ 36 ∧ intToText 0xFFFFFFFF 36 = .error .convUndefined) :=
  ⟨⟨by decide, by decide, rfl⟩, by decide, by decide, rfl⟩

/-- IssueStartsOneTransaction. -/
theorem test_meets_IssueStartsOneTransaction :
    let s := onEvent .dpe (inPhase .issue [⟨0x41, 1, 1⟩] none)
    s.nextEvent = .dpe ∧ s.dpe.phase = .issue ∧ s.dpe.q = ⟨0x41, 1, 1⟩ :: [] := ⟨rfl, rfl, rfl⟩

/-- `base` with the byte 'A' on the bus. -/
def sending : State := issueItem ⟨0x41, 1, 1⟩ (inPhase .issue [⟨0x41, 1, 1⟩] none)

/-- ReturnStartsTheGap, for both answers of the transport. -/
theorem test_meets_ReturnStartsTheGap : ∀ r ∈ [BusResult.ok, .timeout],
    (onEvent (.bus r) sending).nextEvent = .bus r ∧ sending.dpe.phase = .xfer ∧ sending.dpe.q = ⟨0x41, 1, 1⟩ :: [] ∧
    sending.log = .tx (transactionOf base ⟨0x41, 1, 1⟩) :: [] := by decide

/-- A wait of 1 ms that began at tick 1000 - `n`. -/
def waited (phase : Phase) (n : Word) : State :=
  { inPhase phase [] none with dpe := { base.dpe with phase := phase, t0 := 1000 - n, dcur := 1 }, events := [.dpe] }

/-- WaitEndsAfterItsTicks: both phases, at the first tick at which the wait is over. -/
theorem test_meets_WaitEndsAfterItsTicks : ∀ phase ∈ [Phase.prewait, .wait],
    (waited phase 2).nextEvent = .dpe ∧ ((waited phase 2).dpe.phase = .prewait ∨ (waited phase 2).dpe.phase = .wait) ∧
    (waited phase 2).dpe.dcur + 1 ≤ ((waited phase 2).now - (waited phase 2).dpe.t0).toNat := by decide

/-- CompletionEndsTheCommand. -/
theorem test_meets_CompletionEndsTheCommand :
    let s := onEvent .dpe (inPhase .issue [] none)
    s.nextEvent = .dpe ∧ s.dpe.phase = .issue ∧ s.dpe.q = [] ∧ s.dpe.txt = none := ⟨rfl, rfl, rfl, rfl⟩

/-- `base` reading text at `a`, where the bytes 'A' and 0x00 stand at 0x20000000 and 0x20000001. -/
def reading (a : Word) : State := { inPhase .issue [] (some a) with mem := [(0x20000000, 0x41), (0x20000001, 0)] }

/-- TextStepTakesOneByte: a byte and the terminator. -/
theorem test_meets_TextStepTakesOneByte :
    (onEvent .dpe (reading 0x20000000)).nextEvent = .dpe ∧ (reading 0x20000000).dpe.phase = .issue ∧
    (reading 0x20000000).dpe.q = [] ∧ (reading 0x20000000).dpe.txt = some 0x20000000 ∧
    memRead (reading 0x20000000) 0x20000000 = some 0x41 ∧ memRead (reading 0x20000001) 0x20000001 = some 0 := by decide

/-- UnadmittedTextReadIsStuck: the first address past the admitted page. -/
theorem test_meets_UnadmittedTextReadIsStuck :
    let s := onEvent .dpe (reading 0x20001000)
    s.textStuck ∧ s.nextEvent ≠ .reset ∧ ∃ t, step s = .next t :=
  ⟨⟨rfl, rfl, 0x20001000, rfl, by decide⟩, by decide, _, rfl⟩

/-- StoredTextIsReadBack: the last admitted address, and another one. -/
theorem test_meets_StoredTextIsReadBack :
    (onEvent (.store 0x20000FFF 0x42) base).nextEvent = .store 0x20000FFF 0x42 ∧
    base.params.admits 0x20000FFF = true ∧ (0x20000000 : Word) ≠ 0x20000FFF := ⟨rfl, by decide, by decide⟩

/-- EdgeSetsPend. -/
theorem test_meets_EdgeSetsPend : (onEvent .edge base).nextEvent = .edge := rfl

/-- `base` with an evaluation next, PEND = `pend` and the last evaluation `n` ticks ago. -/
def evaluating (pend : Bool) (n : Word) : State :=
  { base with dec := { pend := pend, count := 0, lastts := 1000 - n }, events := [.dec] }

/-- StepsNotEnabledChangeNothing: each of its clauses, the wait one tick before it is over and the text read at the first
address past the admitted page. -/
theorem test_meets_StepsNotEnabledChangeNothing :
    ((onEvent (.bus .timeout) base).nextEvent = .bus .timeout ∧ base.dpe.phase ≠ .xfer) ∧
    ((onEvent .dpe base).nextEvent = .dpe ∧ base.dpe.phase = .idle ∧ sending.dpe.phase = .xfer) ∧
    ((waited .wait 1).dpe.phase = .wait ∧
      ((waited .wait 1).now - (waited .wait 1).dpe.t0).toNat < (waited .wait 1).dpe.dcur + 1) ∧
    ((reading 0x20001000).dpe.phase = .issue ∧ (reading 0x20001000).dpe.q = [] ∧
      (reading 0x20001000).dpe.txt = some 0x20001000 ∧ memRead (reading 0x20001000) 0x20001000 = none) ∧
    ((evaluating false 41).nextEvent = .dec ∧ (evaluating false 41).dec.pend = false) ∧
    (onEvent .host base).nextEvent = .host ∧ (onEvent .host base).host.prog = [] := by decide

/-- EvaluationCountsAfterTheWindow: 40 ticks and 41 ticks. -/
theorem test_meets_EvaluationCountsAfterTheWindow :
    (evaluating true 41).nextEvent = .dec ∧
    ((evaluating true 41).dec.pend = true ∧ 40 < ((evaluating true 41).now - (evaluating true 41).dec.lastts).toNat) ∧
    ((evaluating true 40).now - (evaluating true 40).dec.lastts).toNat ≤ 40 := by decide

/-- IncrementFollowsOverflowChoice: the largest COUNT below the top, and a negative one. -/
theorem test_meets_IncrementFollowsOverflowChoice :
    (0x7FFFFFFE : Word).toInt < 2147483647 ∧ (0x80000000 : Word).toInt < 2147483647 := by decide

/-- CountIsMonotonic: an evaluation that counts, at SATURATE or below the top, and under WRAP at the top. -/
theorem test_meets_CountIsMonotonic :
    (∃ t, step (evaluating true 41) = .next t ∧ t.dec.count ≠ (evaluating true 41).dec.count) ∧
    (evaluating true 41).nextEvent ≠ .reset ∧ (evaluating true 41).dec.count ≠ 0x7FFFFFFF ∧
    (evaluating true 41).params.cntOvf = .wrap ∧
    ({ evaluating true 41 with dec := ⟨true, 0x7FFFFFFF, 0⟩ } : State).dec.count = 0x7FFFFFFF :=
  ⟨⟨_, rfl, by decide⟩, by decide, by decide, rfl, rfl⟩

/-- BounceTrainNeverCounts: gaps of 0 and 40 ticks. -/
theorem test_meets_BounceTrainNeverCounts :
    (evaluating false 0).now = (evaluating false 0).dec.lastts ∧ ∀ gap ∈ [40, 0, 40], gap ≤ 40 := by decide

/-- CounterSeesOnlyEdgesAndTicks: two machines that differ in ARG, STATUS and the sequencer. -/
theorem test_meets_CounterSeesOnlyEdgesAndTicks :
    let s := onEvent .edge base
    let s' := onEvent .edge { inPhase .xfer [] none with arg := 1, status := ⟨.ready, true, true, true, 3⟩ }
    s.dec = s'.dec ∧ s.clock = s'.clock ∧ s.params.cntOvf = s'.params.cntOvf ∧ s.events = s'.events ∧
    s.draws = s'.draws ∧ (∃ t, step s = .next t) ∧ ∃ t', step s' = .next t' :=
  ⟨rfl, rfl, rfl, rfl, rfl, ⟨_, rfl⟩, _, rfl⟩

/-- SlotsAreWhereTheWindowSays: an address that reaches a slot. -/
theorem test_meets_SlotsAreWhereTheWindowSays : target (base.params.offsetOf 0x4000001C) .word = .slot .reserved := by decide

/-- ReadsAnswerTheTable: every slot, the first and last reserved ones included. -/
theorem test_meets_ReadsAnswerTheTable : ∀ k ∈ [(0 : BitVec 3), 1, 2, 3, 4, 5, 7],
    let s := onHost (.read (base.params.offsetOf (base.params.slotAddr k)) .word) base
    s.nextEvent = .host ∧ s.host.prog = .read (s.params.offsetOf (s.params.slotAddr k)) .word :: [] := by decide

/-- StatusWriteClearsStickyBits, ArgWriteStoresTheWord and ReadOnlySlotsIgnoreWrites: any slot and value; for the first,
a value with bits 3, 4, 5 all 1 and one with all 0. -/
theorem test_meets_slot_writes :
    (∀ k v, (onWrite k v).nextEvent = .host ∧ (onWrite k v).host.prog = .wr k v :: []) ∧
    3 ≤ (3 : BitVec 3).toNat ∧ (0x38 : Word).extractLsb' 3 3 = 7 ∧ (0xFFFFFFC7 : Word).extractLsb' 3 3 = 0 :=
  ⟨fun _ _ => ⟨rfl, rfl⟩, by decide, by decide, by decide⟩

/-- NarrowOrMisalignedAccessIsRefused: a byte access of the first byte of the window and a misaligned word at the last
ones; and the addresses on each side of the window. -/
theorem test_meets_NarrowOrMisalignedAccessIsRefused :
    let inside (a : Word) := base.params.blockBase.toNat ≤ a.toNat ∧ a.toNat < base.params.blockBase.toNat + 0x20
    (inside 0x40000000 ∧ inside 0x4000001F ∧ ¬ inside 0x3FFFFFFF ∧ ¬ inside 0x40000020) ∧
    Width.byte ≠ .word ∧ (0x4000001D : Word).toNat % 4 ≠ 0 ∧
    ∀ off, (onHost (.read off .byte) base).host.prog = .read off .byte :: [] ∧
      (onHost (.write off .word 1) base).host.prog = .write off .word 1 :: [] :=
  ⟨by decide, by decide, by decide, fun _ => ⟨rfl, rfl⟩⟩

/-- HostCannotDisturbACommand: a CMD write while a command is in progress, and one that starts a command. -/
theorem test_meets_HostCannotDisturbACommand :
    (∃ t, step (onHost (.wr 0 2) (inPhase .wait [] none)) = .next t) ∧
    (onHost (.wr 0 2) (inPhase .wait [] none)).dpe.phase ≠ .idle ∧
    ∃ t, step (onWrite 0 2) = .next t ∧ t.dpe ≠ (onWrite 0 2).dpe ∧ t.log ≠ (onWrite 0 2).log :=
  ⟨⟨_, rfl⟩, by decide, _, rfl, by decide, by decide⟩

/-- WaitIdlePollsUntilIdle and RenderLoopFollowsTheCounter. -/
theorem test_meets_polls :
    ((onHost .waitIdle base).nextEvent = .host ∧ (onHost .waitIdle base).host.prog = .waitIdle :: []) ∧
    (onHost (.poll 7) base).nextEvent = .host ∧ (onHost (.poll 7) base).host.prog = .poll 7 :: [] := by decide

/-- PseudoProgramsNeverOverrun: a write of CMD that a WAITIDLE has just guarded. -/
theorem test_meets_PseudoProgramsNeverOverrun :
    let s := onWrite 0 0x00000001
    s.dpe.phase = .idle ∧ guarded (decide (s.dpe.phase = .idle)) s.host.prog = true ∧
    (∀ op, s.nextEvent ≠ .issue op) ∧ ∃ t, step s = .next t :=
  ⟨rfl, by decide, fun op h => Event.noConfusion (show Event.host = .issue op from h), _, rfl⟩

/-- ResetSetsTheBlock and ResetLeavesTheSurroundings: a reset during a transaction. -/
theorem test_meets_reset : (onEvent .reset sending).nextEvent = .reset := rfl

/-- BlockNeverWritesMemoryOrParameters: an event that is no store, a tick step, and one more operation for the host. -/
theorem test_meets_BlockNeverWritesMemoryOrParameters :
    ((∃ t, step (onEvent (.tick 5) base) = .next t) ∧ ∀ a b, (onEvent (.tick 5) base).nextEvent ≠ .store a b) ∧
    (onEvent (.tick 5) base).nextEvent = .tick 5 ∧ (onEvent (.issue .waitIdle) base).nextEvent = .issue .waitIdle :=
  ⟨⟨⟨_, rfl⟩, fun a b h => Event.noConfusion (show Event.tick 5 = .store a b from h)⟩, rfl, rfl⟩

/-- `base` with every sticky bit and PEND set. -/
def flagged : State := { base with status := ⟨.ready, true, true, true, 3⟩, dec := ⟨true, 0, 0⟩ }

/-- A run that is fair to the evaluation and starts with an edge pending (42_edge_counter.md R92). -/
theorem test_fair_run_exists :
    ∃ sched r, IsRun sched r ∧ FairToEvaluation sched r ∧ (r 0).dec.pend = true := by
  obtain ⟨r, h0, hr⟩ := exists_run (fun n => if n % 2 = 0 then .edge else .dec) flagged
  exact ⟨_, r, hr, fun n _ => ⟨2 * n + 1, by omega, .inl (if_neg (by omega))⟩, by rw [h0]; rfl⟩

/-- FlagsChangeOnlyByTheirWriters: each flag set by a step, and cleared by one. -/
theorem test_meets_FlagsChangeOnlyByTheirWriters :
    (nextOf (step (onEvent (.bus .timeout) sending))).map (·.status.busto) = some true ∧ sending.status.busto = false ∧
    (nextOf (step (onHost (.wr 0 2) sending))).map (·.status.cmdovr) = some true ∧
    (nextOf (step (onWrite 0 8))).map (·.status.cmderr) = some true ∧
    (nextOf (step (onEvent .edge base))).map (·.dec.pend) = some true ∧
    (nextOf (step (onHost (.wr 2 0x38) flagged))).map
      (fun t => (t.status.busto, t.status.cmdovr, t.status.cmderr)) = some (false, false, false) ∧
    (nextOf (step (onEvent .dec flagged))).map (·.dec.pend) = some false := by decide

/-- StateFollowsInit: the accept of INIT, its completion, and a reset. -/
theorem test_meets_StateFollowsInit :
    (nextOf (step (onWrite 0 1))).map (·.status.state) = some .initializing ∧
    (nextOf (step (onEvent .dpe { inPhase .issue [] none with
      status := { base.status with state := .initializing }
      dpe := { base.dpe with phase := .issue, curop := some .init } }))).map (·.status.state) = some .ready ∧
    (nextOf (step (onEvent .reset flagged))).map (·.status.state) = some .uninit := by decide

/-! ### Witnesses of the invariant -/

/-- The observation after the items have been sent one after another from clock `c` on, each transaction returning at
once, and the clock value at which the last gap is over. -/
def sent (s : State) : List Item → Nat → List Obs → List Obs × Nat
  | [], c, log => (log, c)
  | it :: rest, c, log =>
    sent s rest (c + it.gap + 1) (.tx { transactionOf s it with start := c, ret := some (c, .ok) } :: log)

/-- `base` after INIT, sent without a tick more than it needs. -/
def initDone : State :=
  { base with
    status := { base.status with state := .ready }
    log   := (sent base initItems 1051 [.accepted .init 0 1000]).1
    clock := (sent base initItems 1051 [.accepted .init 0 1000]).2 }

/-- 70_reset_and_hazards.md R143: INIT takes 142 ticks. -/
theorem test_init_takes_142_ticks : initDone.clock = 1000 + 142 := by decide

/-- Closes the check of one transaction in an observation. -/
theorem wellSent (s : State) (it : Item) (c : Nat) (h : Config.settleMs ≤ it.gap) :
    Transaction.WellSent s.params.blLevel { transactionOf s it with start := c, ret := some (c, .ok) } :=
  ⟨rfl, rfl, rfl, rfl, h, fun _ _ e => by cases e; exact Nat.le_refl _⟩

/-- Transactions sent as `sent` sends them keep the observation correct. -/
theorem sent_ok (s : State) (items : List Item) (hg : ∀ it ∈ items, Config.settleMs ≤ it.gap) :
    ∀ (c : Nat) (log : List Obs), RestedAt log c → LogOk s.params.blLevel log →
      RestedAt (sent s items c log).1 (sent s items c log).2 ∧ LogOk s.params.blLevel (sent s items c log).1 := by
  induction items with
  | nil => intro c log hr hl; exact ⟨hr, hl⟩
  | cons it rest ih =>
    intro c log hr hl
    exact ih (fun x hx => hg x (by simp [hx])) _ _ ⟨_, rfl, Nat.le_refl _⟩
      ⟨wellSent s it c (hg it (by simp)), hr, hl⟩

/-- The invariant holds of `initDone`. -/
theorem initDone_inv : initDone.Inv := by
  have h := sent_ok base initItems (by decide) 1051 [.accepted .init 0 1000] ⟨_, rfl, by decide⟩
    ⟨⟨0, rfl, Nat.zero_le _⟩, fun _ _ _ e => (nomatch e), trivial⟩
  refine ⟨rfl, by decide, by decide, by decide, fun p e => (nomatch e), fun e => absurd rfl e, ?_, ⟨h.1, rfl, rfl, rfl⟩, h.2⟩
  intro i arg c e
  cases e
  rfl

/-- `base` after CLEAR, with SENDDATA 'A' accepted at once and its byte on the bus. -/
def secondSending : State :=
  issueItem ⟨0x41, 1, 1⟩
    { base with
      clock := 1003
      dpe   := { base.dpe with phase := .issue, curop := some .senddata, q := [⟨0x41, 1, 1⟩] }
      log   := .accepted (.senddata 0x41) 0 1003 :: (sent base clearItems 1000 [.accepted .clear 0 1000]).1 }

/-- The invariant holds of `secondSending`. -/
theorem secondSending_inv : secondSending.Inv := by
  have h := sent_ok base clearItems (by decide) 1000 [.accepted .clear 0 1000] ⟨_, rfl, by decide⟩
    ⟨⟨0, rfl, Nat.zero_le _⟩, fun _ _ _ e => (nomatch e), trivial⟩
  refine ⟨rfl, by decide, by decide, by decide, fun p e => (nomatch e), fun _ => ⟨_, _, rfl, rfl⟩, ?_, ?_, ?_⟩
  · intro i arg c e; cases e; rfl
  · exact ⟨_, _, rfl, rfl, rfl, rfl, Nat.le_refl _⟩
  · refine ⟨⟨rfl, rfl, rfl, rfl, by decide, fun _ _ e => (nomatch e)⟩, ⟨1003, rfl, Nat.le_refl _⟩, h.1, ?_, h.2⟩
    intro i arg c e; cases e; rfl

/-- The invariant says nothing of what is scheduled. -/
theorem scheduled_inv {s : State} (h : s.Inv) (es : List Event) : (s.scheduled es).Inv :=
  ⟨h.mem, h.err, h.disp, h.queue, h.text, h.current, h.progress, h.phase, h.log⟩

/-- EveryStepKeepsTheInvariant. -/
theorem test_meets_EveryStepKeepsTheInvariant :
    (secondSending.scheduled [.bus .timeout]).Inv ∧ ∃ t, step (secondSending.scheduled [.bus .timeout]) = .next t :=
  ⟨scheduled_inv secondSending_inv _, _, rfl⟩

/-- IdleMeansComplete. -/
theorem test_meets_IdleMeansComplete : initDone.Inv ∧ (readSlot initDone .status).getLsbD 2 = false :=
  ⟨initDone_inv, by decide⟩

/-- TransactionsAreSpaced: two transactions with only an accept between them, the second as early as it can be. -/
theorem test_meets_TransactionsAreSpaced :
    ∃ between older t₁ t₂, secondSending.Inv ∧ secondSending.log = [] ++ .tx t₂ :: between ++ .tx t₁ :: older ∧
      (∀ o ∈ between, ∃ i arg c, o = .accepted i arg c) ∧ t₂.start = 1000 + t₁.item.gap + 1 :=
  ⟨[.accepted (.senddata 0x41) 0 1003], _, _, _, secondSending_inv, rfl,
    fun o h => ⟨.senddata 0x41, 0, 1003, by simpa using h⟩, rfl⟩

/-- CommandsTakeTheirWaits: INIT over after its 142 ticks, and CLEAR over after its 3. -/
theorem test_meets_CommandsTakeTheirWaits :
    (initDone.Inv ∧ initDone.dpe.phase = .idle ∧ lastAccepted initDone.log = some (.init, 0, 1000)) ∧
    ∃ s : State, s.Inv ∧ s.dpe.phase = .idle ∧ lastAccepted s.log = some (.clear, 0, 1000) ∧ s.clock = 1003 := by
  refine ⟨⟨initDone_inv, rfl, rfl⟩,
    { base with log := (sent base clearItems 1000 [.accepted .clear 0 1000]).1, clock := 1003 }, ?_, rfl, rfl, rfl⟩
  have h := sent_ok base clearItems (by decide) 1000 [.accepted .clear 0 1000] ⟨_, rfl, by decide⟩
    ⟨⟨0, rfl, Nat.zero_le _⟩, fun _ _ _ e => (nomatch e), trivial⟩
  refine ⟨rfl, by decide, by decide, by decide, fun p e => (nomatch e), fun e => absurd rfl e, ?_, ⟨h.1, rfl, rfl, rfl⟩, h.2⟩
  intro i arg c e
  cases e
  rfl

/-- CommandInProgressCanComplete. -/
theorem test_meets_CommandInProgressCanComplete :
    secondSending.Inv ∧ secondSending.dpe.phase ≠ .idle ∧ secondSending.dpe.txt = none :=
  ⟨secondSending_inv, by decide, rfl⟩

/-- WtextSendsTheString: the string "A" in admitted memory. -/
theorem test_meets_WtextSendsTheString :
    let s : State := { withArg 0x20000000 with mem := [(0x20000000, 0x41), (0x20000001, 0)] }
    s.dpe.phase = .idle ∧ (∀ c ∈ [(0x41 : Byte)], c ≠ 0) ∧ memRead s (s.arg + BitVec.ofNat 32 0) = some 0x41 ∧
    memRead s (s.arg + BitVec.ofNat 32 1) = some 0 := by decide

end Sys2Proof.Tests
end

section
/-! The reset step of the machine (70_reset_and_hazards.md R131). -/

namespace Sys2Proof.Machine

/-- The reset event's step resets the block, once the event is off the schedule. -/
theorem step_reset {s : State} (h : s.nextEvent = .reset) : step s = .next (resetBlock s.takeEvent) := by
  rw [step_eq h, eventStep]

/-- Settles O48: taking the event off writes the schedule only, the reset of the block writes the block and the mark only, and
a read of host memory depends on the parameters and the stored bytes alone (notes/assumptions/11.md, 12.md). -/
theorem resetLeavesTheSurroundings : Obligations.ResetLeavesTheSurroundings := by
  intro s h
  have hparams : (resetBlock s.takeEvent).params = s.params := by simp
  have hmem : (resetBlock s.takeEvent).mem = s.mem := by simp
  have hclock : (resetBlock s.takeEvent).clock = s.clock := by simp
  have hhost : (resetBlock s.takeEvent).host = s.host := by simp
  have hlog : (resetBlock s.takeEvent).log = .reset s.clock :: s.log := by simp
  exact ⟨_, step_reset h, hparams, hclock, memRead_congr hparams hmem, hmem, hhost,
    resetBlock_events _, resetBlock_draws _, hlog⟩

end Sys2Proof.Machine
end

section
/-! What the words of the invariant say, phase by phase, and how the updates of STATUS and the tick keep them. -/

namespace Sys2Proof.Machine

/-! ### The invariant's words, phase by phase -/

section
variable {d : Dpe} {clock : Nat} {log : List Obs}

theorem phaseOk_idle (h : d.phase = .idle) :
    PhaseOk d clock log ↔ RestedAt log clock ∧ d.curop = none ∧ d.q = [] ∧ d.txt = none := by
  simp only [PhaseOk, h]

theorem phaseOk_issue (h : d.phase = .issue) : PhaseOk d clock log ↔ RestedAt log clock := by
  simp only [PhaseOk, h]

theorem phaseOk_prewait (h : d.phase = .prewait) :
    PhaseOk d clock log ↔ ∃ arg c rest, log = .accepted .init arg c :: rest ∧
      d.t0 = BitVec.ofNat 32 c ∧ d.dcur = Config.preWaitMs ∧ c ≤ clock := by
  simp only [PhaseOk, h]

theorem phaseOk_xfer (h : d.phase = .xfer) :
    PhaseOk d clock log ↔ ∃ t rest, log = .tx t :: rest ∧
      t.ret = none ∧ d.q.head? = some t.item ∧ d.frame = t.frame ∧ t.start ≤ clock := by
  simp only [PhaseOk, h]

theorem phaseOk_wait (h : d.phase = .wait) :
    PhaseOk d clock log ↔ ∃ t rest c r, log = .tx t :: rest ∧
      t.ret = some (c, r) ∧ d.t0 = BitVec.ofNat 32 c ∧ d.dcur = t.item.gap ∧ c ≤ clock := by
  simp only [PhaseOk, h]

/-- Outside a transaction nothing of the item list is on the bus. -/
theorem unsent_eq_q (h : d.phase ≠ .xfer) : d.unsent = d.q := by
  unfold Dpe.unsent
  split
  · exact absurd ‹_› h
  · rfl

theorem unsent_xfer (h : d.phase = .xfer) : d.unsent = d.q.tail := by simp only [Dpe.unsent, h]

end

/-- What has rested stays rested as the tick advances. -/
theorem RestedAt.mono {log : List Obs} {c c' : Nat} (h : RestedAt log c) (hc : c ≤ c') : RestedAt log c' := by
  obtain ⟨r, hr, hle⟩ := h
  exact ⟨r, hr, Nat.le_trans hle hc⟩

/-- The tick may advance in every phase. -/
theorem PhaseOk.mono {d : Dpe} {c c' : Nat} {log : List Obs} (h : PhaseOk d c log) (hc : c ≤ c') :
    PhaseOk d c' log := by
  cases hp : d.phase with
  | idle =>
    obtain ⟨hr, rest⟩ := (phaseOk_idle hp).mp h
    exact (phaseOk_idle hp).mpr ⟨hr.mono hc, rest⟩
  | issue => exact (phaseOk_issue hp).mpr (((phaseOk_issue hp).mp h).mono hc)
  | prewait =>
    obtain ⟨arg, c₀, rest, hlog, ht, hd, hle⟩ := (phaseOk_prewait hp).mp h
    exact (phaseOk_prewait hp).mpr ⟨arg, c₀, rest, hlog, ht, hd, Nat.le_trans hle hc⟩
  | xfer =>
    obtain ⟨t, rest, hlog, hret, hq, hf, hle⟩ := (phaseOk_xfer hp).mp h
    exact (phaseOk_xfer hp).mpr ⟨t, rest, hlog, hret, hq, hf, Nat.le_trans hle hc⟩
  | wait =>
    obtain ⟨t, rest, c₀, r, hlog, hret, ht, hd, hle⟩ := (phaseOk_wait hp).mp h
    exact (phaseOk_wait hp).mpr ⟨t, rest, c₀, r, hlog, hret, ht, hd, Nat.le_trans hle hc⟩

/-- The 32-bit difference of two ticks is at most the ticks that have passed, so a wait seen as over is over
(41_display_driver.md R75). -/
theorem clock_of_waitOver {start clock n : Nat} (hle : start ≤ clock)
    (h : n + 1 ≤ (BitVec.ofNat 32 clock - BitVec.ofNat 32 start).toNat) : start + (n + 1) ≤ clock := by
  have hsub : BitVec.ofNat 32 clock - BitVec.ofNat 32 start = BitVec.ofNat 32 (clock - start) := by
    apply BitVec.eq_of_toNat_eq
    simp only [BitVec.toNat_sub, BitVec.toNat_ofNat]
    omega
  rw [hsub, BitVec.toNat_ofNat] at h
  have := Nat.mod_le (clock - start) (2 ^ 32)
  omega

/-! ### Commands -/

theorem opcode_eq_init_iff (i : Instr) : i.opcode = .init ↔ i = .init := by
  cases i <;> simp [Instr.opcode]

/-- Only WTEXT has a text source, and it is ARG (41_display_driver.md R88). -/
theorem commandText_eq_some {i : Instr} {arg p : Word} (h : commandText i arg = some p) : i = .wtext ∧ p = arg := by
  cases i with
  | wtext => cases h; exact ⟨rfl, rfl⟩
  | init | clear | setcur row col | sendcmd b | senddata b | wint base => cases h

theorem isText_dataItem {c : Byte} (h : c ≠ 0) : (dataItem c).isText := ⟨rfl, h⟩

/-- Only WTEXT has the opcode of WTEXT. -/
theorem opcode_eq_wtext {i : Instr} (h : i.opcode = .wtext) : i = .wtext := by
  cases i with
  | wtext => rfl
  | init | clear | setcur row col | sendcmd b | senddata b | wint base => cases h

/-! ### STATUS -/

section
variable (st : Status)

@[simp] theorem recordOverrun_state : st.recordOverrun.state = st.state := rfl
@[simp] theorem recordOverrun_busto : st.recordOverrun.busto = st.busto := rfl
@[simp] theorem recordOverrun_cmdovr : st.recordOverrun.cmdovr = true := rfl
@[simp] theorem recordOverrun_cmderr : st.recordOverrun.cmderr = st.cmderr := rfl
@[simp] theorem recordOverrun_errcode : st.recordOverrun.errcode = st.errcode := rfl

@[simp] theorem recordError_state (e : CmdError) : (st.recordError e).state = st.state := rfl
@[simp] theorem recordError_busto (e : CmdError) : (st.recordError e).busto = st.busto := rfl
@[simp] theorem recordError_cmdovr (e : CmdError) : (st.recordError e).cmdovr = st.cmdovr := rfl
@[simp] theorem recordError_cmderr (e : CmdError) : (st.recordError e).cmderr = true := rfl
@[simp] theorem recordError_errcode (e : CmdError) :
    (st.recordError e).errcode = if st.cmderr then st.errcode else e.code := rfl

@[simp] theorem writeOneToClear_state (v : Word) : (st.writeOneToClear v).state = st.state := rfl
@[simp] theorem writeOneToClear_busto (v : Word) :
    (st.writeOneToClear v).busto = (st.busto && !v.getLsbD 3) := rfl
@[simp] theorem writeOneToClear_cmdovr (v : Word) :
    (st.writeOneToClear v).cmdovr = (st.cmdovr && !v.getLsbD 4) := rfl
@[simp] theorem writeOneToClear_cmderr (v : Word) :
    (st.writeOneToClear v).cmderr = (st.cmderr && !v.getLsbD 5) := rfl
@[simp] theorem writeOneToClear_errcode (v : Word) :
    (st.writeOneToClear v).errcode = if v.getLsbD 5 then 0 else st.errcode := rfl

end

@[simp] theorem statusReset_busto : Status.reset.busto = false := rfl
@[simp] theorem statusReset_cmdovr : Status.reset.cmdovr = false := rfl
@[simp] theorem statusReset_cmderr : Status.reset.cmderr = false := rfl

/-- ERRCODE is 0 exactly while CMDERR is 0, and never above 5: `State.Inv.err` of a STATUS (10_state.md R20). -/
def Status.ErrOk (st : Status) : Prop := (st.cmderr = false ↔ st.errcode = 0) ∧ st.errcode.toNat ≤ 5

theorem errOk_recordError {st : Status} (h : st.ErrOk) (e : CmdError) : (st.recordError e).ErrOk := by
  have hcode : e.code ≠ 0 ∧ e.code.toNat ≤ 5 := by cases e <;> decide
  obtain ⟨hiff, hle⟩ := h
  cases herr : st.cmderr with
  | false => simpa [Status.ErrOk, herr] using hcode
  | true => exact ⟨by simpa [herr] using hiff, by simpa [herr] using hle⟩

theorem errOk_writeOneToClear {st : Status} (h : st.ErrOk) (v : Word) : (st.writeOneToClear v).ErrOk := by
  unfold Status.ErrOk at h ⊢
  rw [writeOneToClear_cmderr, writeOneToClear_errcode]
  cases v.getLsbD 5 with
  | false => simpa using h
  | true => simp

/-! ### The observation -/

@[simp] theorem sentSince_accepted (i : Instr) (arg : Word) (c : Nat) (log : List Obs) :
    sentSince (.accepted i arg c :: log) = [] := rfl
@[simp] theorem sentSince_tx (t : Transaction) (log : List Obs) :
    sentSince (.tx t :: log) = sentSince log ++ [t.item] := rfl
@[simp] theorem sentSince_reset (c : Nat) (log : List Obs) : sentSince (.reset c :: log) = [] := rfl
@[simp] theorem lastAccepted_accepted (i : Instr) (arg : Word) (c : Nat) (log : List Obs) :
    lastAccepted (.accepted i arg c :: log) = some (i, arg, c) := rfl
@[simp] theorem lastAccepted_tx (t : Transaction) (log : List Obs) :
    lastAccepted (.tx t :: log) = lastAccepted log := rfl
@[simp] theorem lastAccepted_reset (c : Nat) (log : List Obs) : lastAccepted (.reset c :: log) = none := rfl
@[simp] theorem recordTxReturn_tx (t : Transaction) (log : List Obs) (c : Nat) (r : BusResult) :
    recordTxReturn (.tx t :: log) c r = .tx { t with ret := some (c, r) } :: log := rfl

/-- The transaction of an item with a gap is well sent (41_display_driver.md R72). -/
theorem wellSent_transactionOf (s : State) {it : Item} (h : Config.settleMs ≤ it.gap) :
    (transactionOf s it).WellSent s.params.blLevel :=
  ⟨rfl, rfl, rfl, rfl, h, fun _ _ e => nomatch e⟩

/-- It stays well sent when it returns at or after its start. -/
theorem Transaction.WellSent.returned {bl : BitVec 1} {t : Transaction} (h : t.WellSent bl) {c : Nat}
    (hc : t.start ≤ c) (r : BusResult) : { t with ret := some (c, r) }.WellSent bl :=
  ⟨h.addr, h.len, h.timeout, h.frame, h.gap, fun _ _ e => by cases e; exact hc⟩

end Sys2Proof.Machine
end

section
/-! The invariant holds at reset, and every step of every agent keeps it: one lemma per update of the state, then one per
agent. -/

namespace Sys2Proof.Machine

/-- Settles O54: at reset nothing is in progress, stored or observed (10_state.md R31). -/
theorem resetSatisfiesInvariant : Obligations.ResetSatisfiesInvariant where
  mem := reset_mem_wf
  err := by decide
  disp := by decide
  queue := by decide
  text := fun _ h => nomatch h
  current := fun h => absurd rfl h
  progress := fun _ _ _ h => nomatch h
  phase := ⟨⟨0, rfl, Nat.le_refl _⟩, rfl, rfl, rfl⟩
  log := trivial

/-! ### Updates outside the sequencer -/

/-- The invariant speaks of memory, STATUS, the sequencer, the tick, the observation and the parameters only. -/
theorem State.Inv.congr {s t : State} (hs : s.Inv) (hm : t.mem = s.mem) (hst : t.status = s.status)
    (hd : t.dpe = s.dpe) (hc : t.clock = s.clock) (hl : t.log = s.log) (hp : t.params = s.params) : t.Inv where
  mem := hm ▸ hs.mem
  err := hst ▸ hs.err
  disp := hst ▸ hd ▸ hs.disp
  queue := hd ▸ hs.queue
  text := hd ▸ hl ▸ hs.text
  current := hd ▸ hl ▸ hs.current
  progress := hd ▸ hl ▸ hs.progress
  phase := hd ▸ hc ▸ hl ▸ hs.phase
  log := hl ▸ hp ▸ hs.log

variable {s : State}

theorem takeEvent_inv (hs : s.Inv) : s.takeEvent.Inv :=
  hs.congr (takeEvent_mem s) (takeEvent_status s) (takeEvent_dpe s) (takeEvent_clock s) (takeEvent_log s)
    (takeEvent_params s)

theorem storeByte_inv (hs : s.Inv) (a : Word) (b : Byte) : (storeByte s a b).Inv :=
  { hs with mem := store_wf a b hs.mem }

theorem advance_inv (hs : s.Inv) (n : Nat) : (advance s n).Inv :=
  { hs with phase := hs.phase.mono (Nat.le_add_right s.clock n) }

/-- STATUS may change its error code as R20 allows, and any bit but STATE. -/
theorem status_inv (hs : s.Inv) {st : Status} (herr : st.ErrOk) (hstate : st.state = s.status.state) :
    { s with status := st }.Inv :=
  { hs with err := herr, disp := hstate ▸ hs.disp }

theorem raiseCmdError_inv (hs : s.Inv) (e : CmdError) : (raiseCmdError e s).Inv :=
  status_inv hs (errOk_recordError hs.err e) rfl

theorem overrun_inv (hs : s.Inv) : (overrun s).Inv := status_inv hs hs.err rfl

theorem clearErrors_inv (hs : s.Inv) (v : Word) : (clearErrors s v).Inv :=
  status_inv hs (errOk_writeOneToClear hs.err v) rfl

theorem resetBlock_inv (hs : s.Inv) : (resetBlock s).Inv where
  mem := hs.mem
  err := resetSatisfiesInvariant.err
  disp := resetSatisfiesInvariant.disp
  queue := resetSatisfiesInvariant.queue
  text := fun _ h => nomatch h
  current := fun h => absurd rfl h
  progress := fun _ _ _ h => nomatch h
  phase := ⟨⟨s.clock, rfl, Nat.le_refl _⟩, rfl, rfl, rfl⟩
  log := hs.log

/-! ### Accepting a command -/

/-- An idle block has rested, and has nothing in progress or to send. -/
theorem State.Inv.idle (hs : s.Inv) (hp : s.dpe.phase = .idle) :
    RestedAt s.log s.clock ∧ s.dpe.curop = none ∧ s.dpe.q = [] ∧ s.dpe.txt = none := (phaseOk_idle hp).mp hs.phase

/-- With no item left, all the accepted command's items known so far are sent. -/
theorem State.Inv.sentAll (hs : s.Inv) (hp : s.dpe.phase ≠ .xfer) (hq : s.dpe.q = []) : SentAll s.log := by
  intro i arg c h
  simpa [unsent_eq_q hp, hq] using hs.progress i arg c h

/-- What the newest mark of an accept on an idle block asks of the observation (41_display_driver.md R90). -/
theorem logOk_accepted (hs : s.Inv) (hp : s.dpe.phase = .idle) (i : Instr) (arg : Word) :
    LogOk s.params.blLevel (.accepted i arg s.clock :: s.log) := by
  obtain ⟨hrest, -, hq, -⟩ := hs.idle hp
  exact ⟨hrest, hs.sentAll (by simp [hp]) hq, hs.log⟩

theorem accept_inv (hs : s.Inv) (hp : s.dpe.phase = .idle) {i : Instr} (hi : i ≠ .init) :
    (accept i (commandItems i s.arg) (commandText i s.arg) s).Inv where
  mem := hs.mem
  err := hs.err
  disp := by
    obtain ⟨-, hop, -, -⟩ := hs.idle hp
    simpa [opcode_eq_init_iff, hi, hop] using hs.disp
  queue := commandItems_ok i s.arg
  text := by
    intro p h
    obtain ⟨rfl, rfl⟩ := commandText_eq_some h
    exact ⟨rfl, Nat.zero_le 1, (BitVec.add_zero _).symm⟩
  current := fun _ => ⟨i, s.clock, rfl, rfl⟩
  progress := by
    intro i' arg c h
    cases h
    exact commandSends_commandItems i s.arg
  phase := ⟨s.clock, by simp [restedBy, hi], Nat.le_refl _⟩
  log := logOk_accepted hs hp i s.arg

theorem acceptInit_inv (hs : s.Inv) (hp : s.dpe.phase = .idle) : (acceptInit (commandItems .init s.arg) s).Inv where
  mem := hs.mem
  err := hs.err
  disp := ⟨fun _ => rfl, fun _ => rfl⟩
  queue := commandItems_ok .init s.arg
  text := fun _ h => nomatch h
  current := fun _ => ⟨.init, s.clock, rfl, rfl⟩
  progress := by
    intro i arg c h
    cases h
    exact commandSends_commandItems .init s.arg
  phase := ⟨s.arg, s.clock, s.log, rfl, rfl, rfl, Nat.le_refl _⟩
  log := logOk_accepted hs hp .init s.arg

theorem writeCmd_inv {t : State} {w : Word} (hs : s.Inv) (h : writeCmd w s = .next t) : t.Inv := by
  rcases writeCmd_cases h with ⟨-, rfl⟩ | ⟨-, e, rfl⟩ | ⟨hp, rfl⟩ | ⟨hp, i, hi, rfl⟩
  · exact overrun_inv hs
  · exact raiseCmdError_inv hs e
  · exact acceptInit_inv hs hp
  · exact accept_inv hs hp hi

theorem hostStep_inv {t : State} (hs : s.Inv) (h : hostStep s = .next t) : t.Inv := by
  rcases hostStep_cases h with ⟨host, rfl⟩ | ⟨host, v, ops, -, rfl⟩ | ⟨host, v, ops, -, rfl⟩ | ⟨w, ops, -, hw⟩
  · exact hs.congr rfl rfl rfl rfl rfl rfl
  · exact hs.congr rfl rfl rfl rfl rfl rfl
  · exact clearErrors_inv (s := { s with host := host }) (hs.congr rfl rfl rfl rfl rfl rfl) v
  · exact writeCmd_inv (s := { s with host := { s.host with prog := ops } }) (hs.congr rfl rfl rfl rfl rfl rfl) hw

/-! ### The sequencer and the transport -/

/-- A wait that is over has let the gap, or INIT's pre-wait, pass (41_display_driver.md R74, R79). -/
theorem restedAt_of_waitOver (hs : s.Inv) (hp : s.dpe.phase = .prewait ∨ s.dpe.phase = .wait)
    (hw : s.dpe.dcur + 1 ≤ (s.now - s.dpe.t0).toNat) : RestedAt s.log s.clock := by
  rcases hp with hp | hp
  · obtain ⟨arg, c, rest, hlog, ht, hd, hle⟩ := (phaseOk_prewait hp).mp hs.phase
    rw [ht, hd] at hw
    exact ⟨_, by rw [hlog]; rfl, clock_of_waitOver hle hw⟩
  · obtain ⟨t, rest, c, r, hlog, hret, ht, hd, hle⟩ := (phaseOk_wait hp).mp hs.phase
    rw [ht, hd] at hw
    exact ⟨_, by rw [hlog, restedBy, hret]; rfl, clock_of_waitOver hle hw⟩

theorem toIssue_inv (hs : s.Inv) (hp : s.dpe.phase = .prewait ∨ s.dpe.phase = .wait)
    (hr : RestedAt s.log s.clock) : { s with dpe := { s.dpe with phase := .issue } }.Inv := by
  have hx : s.dpe.phase ≠ .xfer := by rcases hp with hp | hp <;> simp [hp]
  have hi : s.dpe.phase ≠ .idle := by rcases hp with hp | hp <;> simp [hp]
  have hu : ({ s.dpe with phase := .issue } : Dpe).unsent = s.dpe.unsent := (unsent_eq_q hx).symm
  exact { hs with text := hu ▸ hs.text, current := fun _ => hs.current hi, progress := hu ▸ hs.progress, phase := hr }

/-- Issuing moves the head item from what is to send to what is sent (41_display_driver.md R77). -/
theorem issueItem_inv (hs : s.Inv) (hp : s.dpe.phase = .issue) {it : Item} {rest : List Item}
    (hq : s.dpe.q = it :: rest) : (issueItem it s).Inv := by
  have hmove : sentSince (issueItem it s).log ++ (issueItem it s).dpe.unsent =
      sentSince s.log ++ s.dpe.unsent := by
    simp [unsent_xfer, unsent_eq_q, hp, hq, transactionOf]
  have hgap : Config.settleMs ≤ it.gap := hs.queue.2 it (by simp [hq])
  exact
  { mem := hs.mem
    err := hs.err
    disp := hs.disp
    queue := hs.queue
    text := by rw [hmove]; exact hs.text
    current := fun _ => hs.current (by simp [hp])
    progress := by rw [hmove]; exact hs.progress
    phase := ⟨transactionOf s it, s.log, rfl, rfl, by simp [hq, transactionOf], rfl, Nat.le_refl _⟩
    log := ⟨wellSent_transactionOf s hgap, (phaseOk_issue hp).mp hs.phase, hs.log⟩ }

/-- The terminator ends the text (41_display_driver.md R88). -/
theorem endText_inv (hs : s.Inv) (hp : s.dpe.phase = .issue) : { s with dpe := { s.dpe with txt := none } }.Inv := by
  have hr : RestedAt s.log s.clock := (phaseOk_issue hp).mp hs.phase
  exact { hs with text := fun _ h => (nomatch h), phase := (phaseOk_issue (by exact hp)).mpr hr }

/-- A command in progress with a text pointer is WTEXT, the one accepted last. -/
theorem State.Inv.wtext_of_txt (hs : s.Inv) (hp : s.dpe.phase ≠ .idle) {a : Word} (ht : s.dpe.txt = some a) {i : Instr}
    {arg : Word} {c : Nat} (h : lastAccepted s.log = some (i, arg, c)) : i = .wtext := by
  obtain ⟨i', c', hlast, hop⟩ := hs.current hp
  obtain ⟨hwtext, -, -⟩ := hs.text a ht
  have hi : i = i' := congrArg Prod.fst (Option.some.inj (h.symm.trans hlast))
  exact hi ▸ opcode_eq_wtext (Option.some.inj (hop.symm.trans hwtext))

/-- A text byte becomes the one item to send, and the pointer moves to the address after it (41_display_driver.md R88). -/
theorem readText_inv (hs : s.Inv) (hp : s.dpe.phase = .issue) (hq : s.dpe.q = []) {a : Word}
    (ht : s.dpe.txt = some a) {c : Byte} (hc : c ≠ 0) :
    { s with dpe := { s.dpe with q := [dataItem c], txt := some (a + 1) } }.Inv := by
  have hu : s.dpe.unsent = [] := by rw [unsent_eq_q (by simp [hp]), hq]
  have hu' : ({ s.dpe with q := [dataItem c], txt := some (a + 1) } : Dpe).unsent = [dataItem c] :=
    unsent_eq_q (by simp [hp])
  obtain ⟨hop, -, ha⟩ := hs.text a ht
  have hr : RestedAt s.log s.clock := (phaseOk_issue hp).mp hs.phase
  refine { hs with queue := ?_, text := ?_, progress := ?_, phase := (phaseOk_issue (by exact hp)).mpr hr }
  · exact ⟨Nat.le_add_left 1 10, by simp [dataItem]⟩
  · rintro _ ⟨rfl⟩
    refine ⟨hop, Nat.le_refl 1, ?_⟩
    rw [hu', ha, hu]
    simp [BitVec.ofNat_add, BitVec.add_assoc]
  · intro i arg c' h
    obtain rfl := hs.wtext_of_txt (by simp [hp]) ht h
    have hsent : ∀ it ∈ sentSince s.log ++ s.dpe.unsent, it.isText := hs.progress _ _ _ h
    rw [hu, List.append_nil] at hsent
    rw [hu']
    exact List.forall_mem_append.mpr ⟨hsent, by simpa using isText_dataItem hc⟩

/-- The completion of INIT is what ends INITIALIZING (41_display_driver.md R83). -/
theorem recordCompletion_ne_initializing {st : Status} {op : Option Opcode}
    (h : st.state = .initializing ↔ op = some .init) : (st.recordCompletion op).state ≠ .initializing := by
  unfold Status.recordCompletion
  split
  · simp
  · rename_i hop
    exact fun e => hop (h.mp e)

theorem complete_inv (hs : s.Inv) (hp : s.dpe.phase = .issue) (hq : s.dpe.q = []) (ht : s.dpe.txt = none) :
    (complete s).Inv := by
  have hu : (complete s).dpe.unsent = s.dpe.unsent := by simp [unsent_eq_q, hp]
  have herr : (s.status.recordCompletion s.dpe.curop).ErrOk := by
    unfold Status.recordCompletion
    split <;> exact hs.err
  exact
  { hs with
    err := herr
    disp := iff_of_false (recordCompletion_ne_initializing hs.disp) (by simp)
    text := fun p h => nomatch ht.symm.trans h
    current := fun h => absurd rfl h
    progress := hu ▸ hs.progress
    phase := ⟨(phaseOk_issue hp).mp hs.phase, rfl, hq, ht⟩ }

theorem dpeStep_inv (hs : s.Inv) : (dpeStep s).Inv := by
  rcases dpeStep_cases s with h | ⟨hp, hw, h⟩ | ⟨it, rest, hp, hq, h⟩ | ⟨a, hp, hq, ht, ⟨-, h⟩ | ⟨c, -, hc, h⟩⟩ |
    ⟨hp, hq, ht, h⟩ <;> rw [h]
  · exact hs
  · exact toIssue_inv hs hp (restedAt_of_waitOver hs hp hw)
  · exact issueItem_inv hs hp hq
  · exact endText_inv hs hp
  · exact readText_inv hs hp hq ht hc
  · exact complete_inv hs hp hq ht

/-- A return ends the transaction of the head item, which is sent already; its gap begins (41_display_driver.md R78). -/
theorem busReturn_inv (hs : s.Inv) (r : BusResult) : (busReturn r s).Inv := by
  rcases busReturn_cases r s with h | ⟨it, rest, hp, hq, h⟩ <;> rw [h]
  · exact hs
  obtain ⟨t, older, hlog, hret, hhead, -, hle⟩ := (phaseOk_xfer hp).mp hs.phase
  have hit : it = t.item := by simpa [hq] using hhead
  have hu : s.dpe.unsent = rest := by rw [unsent_xfer hp, hq, List.tail_cons]
  have hnew : recordTxReturn s.log s.clock r = .tx { t with ret := some (s.clock, r) } :: older := by
    rw [hlog, recordTxReturn_tx]
  have hlast : lastAccepted (recordTxReturn s.log s.clock r) = lastAccepted s.log := by rw [hnew, hlog]; rfl
  have hsent : sentSince (recordTxReturn s.log s.clock r) = sentSince s.log := by rw [hnew, hlog]; rfl
  obtain ⟨hlen, hgaps⟩ := hs.queue
  rw [hq] at hlen hgaps
  obtain ⟨herr, hstate⟩ : (s.status.recordReturn r).ErrOk ∧ (s.status.recordReturn r).state = s.status.state := by
    cases r <;> exact ⟨hs.err, rfl⟩
  have hok : LogOk s.params.blLevel (.tx t :: older) := hlog ▸ hs.log
  obtain ⟨hwell, hrest, hold⟩ := hok
  exact
  { mem := hs.mem
    err := herr
    disp := hstate ▸ hs.disp
    queue := ⟨Nat.le_of_succ_le hlen, fun x hx => hgaps x (List.mem_cons_of_mem it hx)⟩
    text := by
      intro p hpt
      obtain ⟨hop, hone, he⟩ := hs.text p hpt
      rw [hq] at hone
      exact ⟨hop, Nat.le_of_succ_le hone, by rw [hsent]; exact hu ▸ he⟩
    current := fun _ => hlast ▸ hs.current (by simp [hp])
    progress := by
      intro i arg c h
      have := hs.progress i arg c (hlast ▸ h)
      rw [hsent]
      exact hu ▸ this
    phase := ⟨_, older, s.clock, r, hnew, rfl, rfl, congrArg Item.gap hit, Nat.le_refl _⟩
    log := by rw [hnew]; exact ⟨hwell.returned hle r, hrest, hold⟩ }

/-! ### Every agent -/

/-- Settles O55: agent by agent, each update of the state keeps the invariant. -/
theorem everyStepKeepsTheInvariant : Obligations.EveryStepKeepsTheInvariant := by
  intro s t hs h
  have hs' := takeEvent_inv hs
  rcases step_cases h with ⟨-, h⟩ | ⟨op, -, rfl⟩ | ⟨a, b, -, rfl⟩ | ⟨-, rfl⟩ | ⟨-, rfl⟩ | ⟨-, rfl⟩ | ⟨n, -, rfl⟩ |
    ⟨r, -, rfl⟩ | ⟨-, rfl⟩
  · exact hostStep_inv hs' h
  · exact hs'.congr rfl rfl rfl rfl rfl rfl
  · exact storeByte_inv hs' a b
  · exact dpeStep_inv hs'
  · obtain ⟨hp, -, hst, hd, -, hm, hc, hl, -, -⟩ := decStep_frame s.takeEvent
    exact hs'.congr hm hst hd hc hl hp
  · exact hs'.congr rfl rfl rfl rfl rfl rfl
  · exact advance_inv hs' n
  · exact busReturn_inv hs' r
  · exact resetBlock_inv hs'

end Sys2Proof.Machine
end

section
/-! The reset values, the fields of the word STATUS reads as, and what no command changes. -/

namespace Sys2Proof.Machine

/-- Settles O49: the machine starts in the values of 10_state.md R31, and every slot then reads 0. -/
theorem startsInTheResetValues : Obligations.StartsInTheResetValues := by
  refine ⟨rfl, rfl, rfl, rfl, fun k => ?_⟩
  cases slotAt k with
  | cmd | arg | status | count | edge | reserved => rfl

/-! ### The fields of STATUS -/

section
variable (st : Status) (busy : Bool)

/-- Bits 1:0 of STATUS (10_state.md R16). -/
theorem statusWord_state : (statusWord st busy).extractLsb' 0 2 = st.state.code := by
  apply BitVec.eq_of_getLsbD_eq
  intro i hi
  simp only [BitVec.getLsbD_extractLsb', statusWord_getLsbD]
  simp [hi]

/-- Bits 11:8 of STATUS (10_state.md R20). -/
theorem statusWord_errcode : (statusWord st busy).extractLsb' 8 4 = st.errcode := by
  apply BitVec.eq_of_getLsbD_eq
  intro i hi
  have hlt : ¬ 8 + i < 2 := by omega
  have hne : 8 + i ≠ 2 ∧ 8 + i ≠ 3 ∧ 8 + i ≠ 4 ∧ 8 + i ≠ 5 := by omega
  have hin : 8 ≤ 8 + i ∧ 8 + i < 12 := by omega
  simp only [BitVec.getLsbD_extractLsb', statusWord_getLsbD, hlt, hne, hin, hi]
  simp

/-- Bits 7:6 and 31:12 of STATUS read 0 (10_state.md R32). -/
theorem statusWord_reserved {lo len : Nat} (h : (6 ≤ lo ∧ lo + len ≤ 8) ∨ 12 ≤ lo) :
    (statusWord st busy).extractLsb' lo len = 0#len := by
  apply BitVec.eq_of_getLsbD_eq
  intro i hi
  have hlt : ¬ lo + i < 2 := by omega
  have hne : lo + i ≠ 2 ∧ lo + i ≠ 3 ∧ lo + i ≠ 4 ∧ lo + i ≠ 5 := by omega
  have hout : ¬ (8 ≤ lo + i ∧ lo + i < 12) := by omega
  simp only [BitVec.getLsbD_extractLsb', statusWord_getLsbD, hlt, hne, hout]
  simp

end

/-- Settles O38: STATUS reads as `statusWord` of the stored bits and BUSY, field by field. -/
theorem statusWordFields : Obligations.StatusWordFields := by
  intro s
  have hstate := statusWord_state s.status s.dpe.busy
  refine ⟨statusWord s.status s.dpe.busy, rfl, ?_, ?_, ?_, ?_, ?_, ?_, ?_, ?_, ?_, ?_, ?_⟩
  · intro h; rw [hstate, h]; rfl
  · intro h; rw [hstate, h]; rfl
  · intro h; rw [hstate, h]; rfl
  · rw [hstate]; exact dispState_code_ne_three s.status.state
  · exact statusWord_busy s.status s.dpe.busy
  · exact statusWord_getLsbD s.status s.dpe.busy 3
  · exact statusWord_getLsbD s.status s.dpe.busy 4
  · exact statusWord_getLsbD s.status s.dpe.busy 5
  · exact statusWord_reserved _ _ (.inl ⟨Nat.le_refl 6, Nat.le_refl 8⟩)
  · exact statusWord_errcode s.status s.dpe.busy
  · exact statusWord_reserved _ _ (.inr (Nat.le_refl 12))

/-! ### Commands -/

/-- Settles O14: a command overruns, records an error or is accepted, and none of these writes anything else. -/
theorem commandsLeaveTheRestAlone : Obligations.CommandsLeaveTheRestAlone := by
  intro i s t h
  rcases exec_cases h with ⟨-, rfl⟩ | ⟨-, e, rfl⟩ | ⟨-, rfl, rfl⟩ | ⟨-, -, rfl⟩ <;>
    refine ⟨rfl, rfl, memRead_congr rfl rfl, rfl, rfl, rfl, rfl, rfl, rfl, rfl, rfl, fun hi => ?_, ?_⟩
  case inl.refine_2 | inr.inl.refine_2 => exact .inl rfl
  case inr.inr.inl.refine_2 | inr.inr.inr.refine_2 => exact .inr rfl
  case inr.inr.inl.refine_1 => exact absurd rfl hi
  all_goals exact ⟨rfl, rfl, rfl⟩

end Sys2Proof.Machine
end

section
/-! What a step of any agent can do to the surroundings of the block, to STATUS and to PEND. -/

namespace Sys2Proof.Machine

/-! ### Parameters, host memory and the tick -/

/-- What every agent but a store leaves alone, and a store but for memory (10_state.md R26, R29, 20_memory.md R39). -/
theorem step_surroundings {s t : State} (h : step s = .next t) :
    t.params = s.params ∧ ((∀ a b, s.nextEvent ≠ .store a b) → t.mem = s.mem) ∧ s.clock ≤ t.clock := by
  rcases step_cases h with ⟨-, h⟩ | ⟨op, -, rfl⟩ | ⟨a, b, he, rfl⟩ | ⟨-, rfl⟩ | ⟨-, rfl⟩ | ⟨-, rfl⟩ | ⟨n, -, rfl⟩ |
    ⟨r, -, rfl⟩ | ⟨-, rfl⟩
  · obtain ⟨hp, -, hm, hc, -, -⟩ := hostStep_frame h
    simp [hp, hm, hc]
  · simp
  · exact ⟨takeEvent_params s, fun hne => absurd he (hne a b), Nat.le_of_eq (takeEvent_clock s).symm⟩
  · obtain ⟨hp, -, -, -, hm, hc, -, -⟩ := dpeStep_frame s.takeEvent
    simp [hp, hm, hc]
  · obtain ⟨hp, -, -, -, -, hm, hc, -, -, -⟩ := decStep_frame s.takeEvent
    simp [hp, hm, hc]
  · simp
  · simp
  · obtain ⟨hp, -, -, -, hm, hc, -, -⟩ := busReturn_frame r s.takeEvent
    simp [hp, hm, hc]
  · simp

/-- Settles O51: agent by agent, then the tick and issue steps whole. -/
theorem blockNeverWritesMemoryOrParameters : Obligations.BlockNeverWritesMemoryOrParameters := by
  refine ⟨fun s t => step_surroundings, fun s n he => ?_, fun s op he => ?_⟩
  · rw [step_eq he, eventStep, advance, takeEvent_clock]
  · rw [step_eq he, eventStep, issueOp, takeEvent_host]

/-! ### STATUS -/

/-- What a step from `s` to `t` can do to STATUS: the agent that moves, where the sequencer is, and the new STATUS
(10_state.md R33). -/
inductive StatusChange (s t : State) : Prop where
  | kept (h : t.status = s.status)
  | cleared (he : s.nextEvent = .host) (v : Word) (hw : ∃ ops, s.writesNext .status v ops)
      (h : t.status = s.status.writeOneToClear v)
  | overrun (he : s.nextEvent = .host) (hp : s.dpe.phase ≠ .idle) (hw : ∃ w ops, s.writesNext .cmd w ops)
      (h : t.status = s.status.recordOverrun)
  | rejected (he : s.nextEvent = .host) (hp : s.dpe.phase = .idle) (hw : ∃ w ops, s.writesNext .cmd w ops)
      (e : CmdError) (h : t.status = s.status.recordError e)
  | initAccepted (he : s.nextEvent = .host) (hp : s.dpe.phase = .idle) (hop : t.dpe.curop = some .init)
      (h : t.status = { s.status with state := .initializing })
  | initCompleted (he : s.nextEvent = .dpe) (hop : s.dpe.curop = some .init) (hp : t.dpe.phase = .idle)
      (h : t.status = { s.status with state := .ready })
  | timedOut (he : s.nextEvent = .bus .timeout) (hp : s.dpe.phase = .xfer)
      (h : t.status = { s.status with busto := true })
  | reset (he : s.nextEvent = .reset) (h : t.status = Status.reset)

theorem step_status {s t : State} (h : step s = .next t) : StatusChange s t := by
  rcases step_cases h with ⟨he, h⟩ | ⟨op, -, rfl⟩ | ⟨a, b, -, rfl⟩ | ⟨he, rfl⟩ | ⟨-, rfl⟩ | ⟨-, rfl⟩ | ⟨n, -, rfl⟩ |
    ⟨r, he, rfl⟩ | ⟨he, rfl⟩
  · have hc := hostStep_status h
    simp only [takeEvent_status, takeEvent_dpe, takeEvent_writesNext] at hc
    rcases hc with hst | ⟨v, ops, hw, hst⟩ | ⟨w, ops, hw, ⟨hp, hst⟩ | ⟨hp, e, hst⟩ | ⟨hp, hst, hop⟩⟩
    · exact .kept hst
    · exact .cleared he v ⟨ops, hw⟩ hst
    · exact .overrun he hp ⟨w, ops, hw⟩ hst
    · exact .rejected he hp ⟨w, ops, hw⟩ e hst
    · exact .initAccepted he hp hop hst
  · exact .kept (by simp)
  · exact .kept (by simp)
  · have hc := dpeStep_status s.takeEvent
    simp only [takeEvent_status, takeEvent_dpe] at hc
    rcases hc with hst | ⟨hst, hop, hp⟩
    · exact .kept hst
    · exact .initCompleted he hop hp hst
  · obtain ⟨-, -, hst, -⟩ := decStep_frame s.takeEvent
    exact .kept (by simp [hst])
  · exact .kept (by simp)
  · exact .kept (by simp)
  · rcases busReturn_cases r s.takeEvent with hb | ⟨it, rest, hp, -, hb⟩
    · exact .kept (by simp [hb])
    · rw [takeEvent_dpe] at hp
      cases r with
      | ok => exact .kept (by simp [hb, Status.recordReturn])
      | timeout => exact .timedOut he hp (by simp [hb, Status.recordReturn])
  · exact .reset he rfl

/-- Settles O53: only three of the ways STATUS can change write STATE. -/
theorem stateFollowsInit : Obligations.StateFollowsInit := by
  intro s t hstep hne
  cases step_status hstep with
  | initAccepted he hp hop h => exact .inl ⟨by rw [h], he, hp, hop⟩
  | initCompleted he hop hp h => exact .inr (.inl ⟨by rw [h], he, hop, hp⟩)
  | reset he h => exact .inr (.inr ⟨by rw [h]; rfl, he⟩)
  | kept h | cleared _ _ _ h | overrun _ _ _ h | rejected _ _ _ _ h | timedOut _ _ h =>
    exact absurd (congrArg Status.state h) hne

section
variable {s t : State}

/-- A host step that writes to STATUS with a 1 in `bit`, or a reset: what may clear the flag at `bit` (10_state.md R18). -/
def ClearsFlag (s : State) (bit : Nat) : Prop :=
  s.nextEvent = .reset ∨ (s.nextEvent = .host ∧ ∃ v ops, s.writesNext .status v ops ∧ v.getLsbD bit = true)

theorem clearsFlag_of_write {bit : Nat} (he : s.nextEvent = .host) {v : Word} (hw : ∃ ops, s.writesNext .status v ops)
    (hv : v.getLsbD bit = true) : ClearsFlag s bit := by
  obtain ⟨ops, hw⟩ := hw
  exact .inr ⟨he, v, ops, hw, hv⟩

/-- BUSTO is set by a timeout only (10_state.md R18). -/
theorem StatusChange.busto_set (hc : StatusChange s t) (h₀ : s.status.busto = false) (h₁ : t.status.busto = true) :
    s.nextEvent = .bus .timeout ∧ s.dpe.phase = .xfer := by
  cases hc with
  | timedOut he hp h => exact ⟨he, hp⟩
  | kept h | cleared _ _ _ h | overrun _ _ _ h | rejected _ _ _ _ h | initAccepted _ _ _ h | initCompleted _ _ _ h | reset _ h =>
    simp [h, h₀] at h₁

theorem StatusChange.busto_cleared (hc : StatusChange s t) (h₀ : s.status.busto = true) (h₁ : t.status.busto = false) :
    ClearsFlag s 3 := by
  cases hc with
  | reset he h => exact .inl he
  | cleared he v hw h =>
    exact clearsFlag_of_write he hw (by simpa [h, h₀] using h₁)
  | kept h | overrun _ _ _ h | rejected _ _ _ _ h | initAccepted _ _ _ h | initCompleted _ _ _ h | timedOut _ _ h =>
    simp [h, h₀] at h₁

/-- CMDOVR is set by a CMD write while BUSY = 1 only (10_state.md R19). -/
theorem StatusChange.cmdovr_set (hc : StatusChange s t) (h₀ : s.status.cmdovr = false) (h₁ : t.status.cmdovr = true) :
    s.nextEvent = .host ∧ s.dpe.phase ≠ .idle ∧ ∃ w ops, s.writesNext .cmd w ops := by
  cases hc with
  | overrun he hp hw h => exact ⟨he, hp, hw⟩
  | kept h | cleared _ _ _ h | rejected _ _ _ _ h | initAccepted _ _ _ h | initCompleted _ _ _ h | timedOut _ _ h | reset _ h =>
    simp [h, h₀] at h₁

theorem StatusChange.cmdovr_cleared (hc : StatusChange s t) (h₀ : s.status.cmdovr = true) (h₁ : t.status.cmdovr = false) :
    ClearsFlag s 4 := by
  cases hc with
  | reset he h => exact .inl he
  | cleared he v hw h =>
    exact clearsFlag_of_write he hw (by simpa [h, h₀] using h₁)
  | kept h | overrun _ _ _ h | rejected _ _ _ _ h | initAccepted _ _ _ h | initCompleted _ _ _ h | timedOut _ _ h =>
    simp [h, h₀] at h₁

/-- CMDERR is set by a CMD write while BUSY = 0 only (10_state.md R20). -/
theorem StatusChange.cmderr_set (hc : StatusChange s t) (h₀ : s.status.cmderr = false) (h₁ : t.status.cmderr = true) :
    s.nextEvent = .host ∧ s.dpe.phase = .idle ∧ ∃ w ops, s.writesNext .cmd w ops := by
  cases hc with
  | rejected he hp hw e h => exact ⟨he, hp, hw⟩
  | kept h | cleared _ _ _ h | overrun _ _ _ h | initAccepted _ _ _ h | initCompleted _ _ _ h | timedOut _ _ h | reset _ h =>
    simp [h, h₀] at h₁

/-- ERRCODE is kept while CMDERR stays 1: the first code wins (60_exceptions.md R114). -/
theorem StatusChange.errcode_kept (hc : StatusChange s t) (h₀ : s.status.cmderr = true) (h₁ : t.status.cmderr = true) :
    t.status.errcode = s.status.errcode := by
  cases hc with
  | cleared he v hw h =>
    have hv : v.getLsbD 5 = false := by simpa [h, h₀] using h₁
    rw [h, writeOneToClear_errcode]; exact if_neg (Bool.eq_false_iff.mp hv)
  | rejected he hp hw e h => simp [h, h₀]
  | reset he h => simp [h] at h₁
  | kept h | overrun _ _ _ h | initAccepted _ _ _ h | initCompleted _ _ _ h | timedOut _ _ h =>
    simp [h]

/-- CMDERR is cleared together with ERRCODE (43_host_interface.md R104). -/
theorem StatusChange.cmderr_cleared (hc : StatusChange s t) (h₀ : s.status.cmderr = true) (h₁ : t.status.cmderr = false) :
    t.status.errcode = 0 ∧ ClearsFlag s 5 := by
  cases hc with
  | reset he h => exact ⟨by rw [h]; rfl, .inl he⟩
  | cleared he v hw h =>
    have hv : v.getLsbD 5 = true := by simpa [h, h₀] using h₁
    exact ⟨by rw [h, writeOneToClear_errcode]; exact if_pos hv, clearsFlag_of_write he hw hv⟩
  | kept h | overrun _ _ _ h | rejected _ _ _ _ h | initAccepted _ _ _ h | initCompleted _ _ _ h | timedOut _ _ h =>
    simp [h, h₀] at h₁

/-! ### PEND -/

/-- PEND is set by an edge only (10_state.md R22). -/
theorem pend_set (h : step s = .next t) (h₀ : s.dec.pend = false) (h₁ : t.dec.pend = true) : s.nextEvent = .edge := by
  rcases step_cases h with ⟨-, h⟩ | ⟨op, -, rfl⟩ | ⟨a, b, -, rfl⟩ | ⟨-, rfl⟩ | ⟨-, rfl⟩ | ⟨he, rfl⟩ | ⟨n, -, rfl⟩ |
    ⟨r, -, rfl⟩ | ⟨-, rfl⟩
  · obtain ⟨-, hd, -⟩ := hostStep_frame h
    simp [hd, h₀] at h₁
  · simp [h₀] at h₁
  · simp [h₀] at h₁
  · obtain ⟨-, -, hd, -⟩ := dpeStep_frame s.takeEvent
    simp [hd, h₀] at h₁
  · simp [eventStep_clears_pend (e := .dec) rfl (.inl rfl)] at h₁
  · exact he
  · simp [h₀] at h₁
  · obtain ⟨-, -, hd, -⟩ := busReturn_frame r s.takeEvent
    simp [hd, h₀] at h₁
  · simp [Dec.reset] at h₁

/-- PEND is cleared by an evaluation or a reset only. -/
theorem pend_cleared (h : step s = .next t) (h₀ : s.dec.pend = true) (h₁ : t.dec.pend = false) :
    s.nextEvent = .dec ∨ s.nextEvent = .reset := by
  by_cases hd : s.nextEvent = .dec
  · exact .inl hd
  by_cases hr : s.nextEvent = .reset
  · exact .inr hr
  have hp := eventStep_keeps_pend ((step_eq rfl).symm.trans h) hd hr (by rwa [takeEvent_dec])
  exact absurd (hp.symm.trans h₁) (by decide)

end

/-- Settles O52: flag by flag, from the ways a step can change STATUS and PEND. -/
theorem flagsChangeOnlyByTheirWriters : Obligations.FlagsChangeOnlyByTheirWriters := by
  intro s t h
  have hc := step_status h
  exact ⟨hc.busto_set, hc.busto_cleared, hc.cmdovr_set, hc.cmdovr_cleared, hc.cmderr_set, hc.errcode_kept,
    hc.cmderr_cleared, pend_set h, pend_cleared h⟩

end Sys2Proof.Machine
end

section
/-! The steps of the sequencer and the transport, case by case, and the steps that are not enabled
(41_display_driver.md R77 to R80, R88). -/

namespace Sys2Proof.Machine

variable {s : State}

/-! ### One equation per case of a step -/

/-- In IDLE and in XFER no DPE step is enabled. -/
theorem dpeStep_disabled (hp : s.dpe.phase = .idle ∨ s.dpe.phase = .xfer) : dpeStep s = s := by
  rcases hp with hp | hp <;> simp only [dpeStep, hp]

theorem dpeStep_wait (hp : s.dpe.phase = .prewait ∨ s.dpe.phase = .wait) : dpeStep s = waitStep s := by
  rcases hp with hp | hp <;> simp only [dpeStep, hp]

theorem waitStep_early (h : (s.now - s.dpe.t0).toNat < s.dpe.dcur + 1) : waitStep s = s :=
  if_neg fun hw => absurd h (Nat.not_lt_of_ge (of_decide_eq_true hw))

theorem waitStep_over (h : s.dpe.dcur + 1 ≤ (s.now - s.dpe.t0).toNat) :
    waitStep s = { s with dpe := { s.dpe with phase := .issue } } :=
  if_pos (decide_eq_true h)

theorem dpeStep_item (hp : s.dpe.phase = .issue) {it : Item} {rest : List Item} (hq : s.dpe.q = it :: rest) :
    dpeStep s = issueItem it s := by
  simp only [dpeStep, hp, hq]

theorem dpeStep_text (hp : s.dpe.phase = .issue) (hq : s.dpe.q = []) {a : Word} (ht : s.dpe.txt = some a) :
    dpeStep s = textStep a s := by
  simp only [dpeStep, hp, hq, ht]

theorem dpeStep_complete (hp : s.dpe.phase = .issue) (hq : s.dpe.q = []) (ht : s.dpe.txt = none) :
    dpeStep s = complete s := by
  simp only [dpeStep, hp, hq, ht]

theorem textStep_unadmitted {a : Word} (h : memRead s a = none) : textStep a s = s := by
  simp only [textStep, h]

theorem textStep_terminator {a : Word} (h : memRead s a = some 0) :
    textStep a s = { s with dpe := { s.dpe with txt := none } } := by
  simp only [textStep, h, if_true]

theorem textStep_byte {a : Word} {c : Byte} (h : memRead s a = some c) (hc : c ≠ 0) :
    textStep a s = { s with dpe := { s.dpe with q := [dataItem c], txt := some (a + 1) } } := by
  simp only [textStep, h, if_neg hc]

/-- Outside XFER a return of the transport is ignored (70_reset_and_hazards.md R132). -/
theorem busReturn_ignored (hp : s.dpe.phase ≠ .xfer) (r : BusResult) : busReturn r s = s := by
  rcases busReturn_cases r s with h | ⟨_, _, hx, _, _⟩
  · exact h
  · exact absurd hx hp

theorem busReturn_xfer (hp : s.dpe.phase = .xfer) {it : Item} {rest : List Item} (hq : s.dpe.q = it :: rest)
    (r : BusResult) : busReturn r s = { s with
      status := s.status.recordReturn r
      dpe := { s.dpe with q := rest, t0 := s.now, dcur := it.gap, phase := .wait }
      log := recordTxReturn s.log s.clock r } := by
  simp only [busReturn, hp, hq]

theorem decStep_disabled (hp : s.dec.pend = false) : decStep s = s := by
  simp [decStep, hp]

theorem hostStep_disabled (hp : s.host.prog = []) : hostStep s = .next s := by
  simp only [hostStep, hp]

/-! ### Reads of host memory -/

/-- Taking the event off leaves host memory and the admitted addresses. -/
@[simp] theorem memRead_takeEvent (s : State) (a : Word) : memRead s.takeEvent a = memRead s a :=
  memRead_congr (takeEvent_params s) (takeEvent_mem s) a

/-- A read answers no byte exactly at an address that is not admitted (20_memory.md R40). -/
theorem memRead_eq_none_iff {a : Word} : memRead s a = none ↔ s.params.admits a = false := by
  unfold memRead
  cases s.params.admits a <;> simp

/-! ### Steps of the machine -/

/-- A DPE event's step is the DPE's step. -/
theorem step_dpe (he : s.nextEvent = .dpe) : step s = .next (dpeStep s.takeEvent) := by
  rw [step_eq he, eventStep]

/-- Settles O23: agent by agent, the step that is not enabled. -/
theorem stepsNotEnabledChangeNothing : Obligations.StepsNotEnabledChangeNothing := by
  intro s
  refine ⟨?_, ?_, ?_, ?_, ?_, ?_⟩
  · rintro ⟨r, he⟩ hp
    rw [step_eq he, eventStep, busReturn_ignored (by simpa using hp)]
  · intro he hp
    rw [step_dpe he, dpeStep_disabled (by simpa using hp)]
  · intro he hp hw
    rw [step_dpe he, dpeStep_wait (by simpa using hp), waitStep_early (by simpa using hw)]
  · intro a he hp hq ht hm
    rw [step_dpe he, dpeStep_text (by simpa using hp) (by simpa using hq) (by simpa using ht),
      textStep_unadmitted (by simpa using hm)]
  · intro he hp
    rw [step_eq he, eventStep, decStep_disabled (by simpa using hp)]
  · intro he hp
    rw [step_eq he, eventStep, hostStep_disabled (by simpa using hp)]

/-- Settles O26: the text step at the terminator, and at any other byte. -/
theorem textStepTakesOneByte : Obligations.TextStepTakesOneByte := by
  intro s a c he hp hq ht hm
  have hstep : step s = .next (textStep a s.takeEvent) := by
    rw [step_dpe he, dpeStep_text (by simpa using hp) (by simpa using hq) (by simpa using ht)]
  constructor
  · rintro rfl
    rw [hstep, textStep_terminator (by simpa using hm), takeEvent_dpe]
  · intro hc
    rw [hstep, textStep_byte (by simpa using hm) hc, takeEvent_dpe]
    rfl

/-! ### A text read that is not admitted -/

/-- While a command is in progress no host step touches the sequencer (43_host_interface.md R108). -/
theorem hostStep_dpe_of_busy {t : State} (hp : s.dpe.phase ≠ .idle) (h : hostStep s = .next t) : t.dpe = s.dpe := by
  rcases hostStep_cases h with ⟨_, rfl⟩ | ⟨_, _, _, -, rfl⟩ | ⟨_, _, _, -, rfl⟩ | ⟨_, _, -, hw⟩
  · rfl
  · rfl
  · rfl
  · rcases writeCmd_cases hw with ⟨-, rfl⟩ | ⟨hi, -⟩ | ⟨hi, -⟩ | ⟨hi, -⟩
    · rfl
    all_goals exact absurd hi hp

/-- A stuck DPE has no step (20_memory.md R40). -/
theorem dpeStep_of_textStuck (h : s.textStuck) : dpeStep s = s := by
  obtain ⟨hp, hq, a, ht, ha⟩ := h
  rw [dpeStep_text hp hq ht, textStep_unadmitted (memRead_eq_none_iff.mpr ha)]

/-- Being stuck is a matter of the sequencer and the admitted addresses only. -/
theorem textStuck_congr {t : State} (hd : t.dpe = s.dpe) (hp : t.params = s.params) : t.textStuck ↔ s.textStuck := by
  rw [State.textStuck, State.textStuck, hd, hp]

/-- No step but a reset touches a stuck sequencer. -/
theorem step_dpe_of_textStuck {t : State} (hs : s.textStuck) (hr : s.nextEvent ≠ .reset) (h : step s = .next t) :
    t.dpe = s.dpe := by
  have hs' : s.takeEvent.textStuck := (textStuck_congr (takeEvent_dpe s) (takeEvent_params s)).mpr hs
  have hp : s.takeEvent.dpe.phase = .issue := hs'.1
  rw [← takeEvent_dpe s]
  rcases step_cases h with ⟨-, h⟩ | ⟨_, -, rfl⟩ | ⟨_, _, -, rfl⟩ | ⟨-, rfl⟩ | ⟨-, rfl⟩ | ⟨-, rfl⟩ | ⟨_, -, rfl⟩ |
    ⟨r, -, rfl⟩ | ⟨he, -⟩
  · exact hostStep_dpe_of_busy (by rw [hp]; decide) h
  · rfl
  · rfl
  · rw [dpeStep_of_textStuck hs']
  · obtain ⟨-, -, -, hd, -⟩ := decStep_frame s.takeEvent
    exact hd
  · rfl
  · rfl
  · rw [busReturn_ignored (by rw [hp]; decide)]
  · exact absurd he hr

/-- Settles O27: no step but a reset touches the stuck sequencer, and none the admitted addresses; ISSUE reads as BUSY. -/
theorem unadmittedTextReadIsStuck : Obligations.UnadmittedTextReadIsStuck := by
  intro s t hs hr h
  have ht : t.textStuck :=
    (textStuck_congr (step_dpe_of_textStuck hs hr h) (step_surroundings h).1).mpr hs
  have hp : t.dpe.phase = .issue := ht.1
  refine ⟨ht, ?_⟩
  rw [readSlot, statusWord_busy, busy_iff, hp]
  decide

end Sys2Proof.Machine
end

section
/-! Host memory, the place of the register window, and what a read of BUSY = 0 says (20_memory.md). -/

namespace Sys2Proof.Machine

/-- Settles O28: a store event stores its byte, which is read back, and nothing else but the schedule changes. -/
theorem storedTextIsReadBack : Obligations.StoredTextIsReadBack := by
  intro s a b he
  refine ⟨storeByte s.takeEvent a b, by rw [step_eq he, eventStep], fun ha => ?_, fun x hx => ?_, ?_⟩
  · exact memRead_storeByte_same s.takeEvent a b (by simpa using ha)
  · rw [memRead_storeByte_other s.takeEvent b hx, memRead_takeEvent]
  · simp

/-! ### The register window -/

section
variable (p : Params)

/-- BLOCK_BASE is a multiple of 0x20 (20_memory.md R35). -/
theorem blockBase_aligned : p.blockBase.toNat % 0x20 = 0 := by
  rw [blockBase_toNat, Nat.mul_mod_left]

/-- A host address is BLOCK_BASE and its offset (20_memory.md R34). -/
theorem blockBase_add_offsetOf (addr : Word) : p.blockBase + p.offsetOf addr = addr := by
  rw [Params.offsetOf, BitVec.add_comm, BitVec.sub_add_cancel]

/-- As BLOCK_BASE is aligned, an offset is at a multiple of 4 exactly where the address is. -/
theorem offsetOf_aligned_iff (addr : Word) : (p.offsetOf addr).extractLsb' 0 2 = 0#2 ↔ addr.toNat % 4 = 0 := by
  have hbase := blockBase_toNat p
  have hlt := p.blockBase.isLt
  rw [← BitVec.toNat_inj, BitVec.extractLsb'_toNat, Nat.shiftRight_eq_div_pow, Params.offsetOf, BitVec.toNat_sub]
  simp only [BitVec.toNat_ofNat]
  omega

end

/-- Settles O36: a slot's address is BLOCK_BASE and the slot's offset, and only that offset reaches the slot. -/
theorem slotsAreWhereTheWindowSays : Obligations.SlotsAreWhereTheWindowSays := by
  intro p
  refine ⟨blockBase_aligned p, blockBase_add_offsetOf p, fun k => ⟨slotAddr_toNat p k, ?_⟩, fun addr slot h => ?_⟩
  · rw [offsetOf_slotAddr, target_slotOffset]
  · obtain ⟨-, k, hoff, hslot⟩ := target_eq_slot h
    exact ⟨k, eq_slotAddr_of_offsetOf hoff, hslot⟩

/-- An access of the window that is narrow or misaligned is not admitted (20_memory.md R36). -/
theorem target_notAdmitted {off : Word} {width : Width} (hin : off.extractLsb' 5 27 = 0#27)
    (h : width ≠ .word ∨ off.extractLsb' 0 2 ≠ 0#2) : target off width = .notAdmitted := by
  rw [target, if_pos hin, if_neg fun ⟨hword, haligned⟩ => h.elim (· hword) (· haligned)]

/-- An access that begins outside the window goes elsewhere (notes/assumptions/5.md). -/
theorem target_elsewhere {off : Word} (hout : off.extractLsb' 5 27 ≠ 0#27) (width : Width) :
    target off width = .elsewhere := if_neg hout

/-- Settles O42: where the access goes, inside and outside the window, decides what the step does. -/
theorem narrowOrMisalignedAccessIsRefused : Obligations.NarrowOrMisalignedAccessIsRefused := by
  intro s addr v width ops he off inside
  have hwindow : off.extractLsb' 5 27 = 0#27 ↔ inside := offsetOf_window_iff s.params addr
  constructor
  · intro hin hbad
    have htarget : target off width = .notAdmitted :=
      target_notAdmitted (hwindow.mpr hin) (hbad.imp_right (mt (offsetOf_aligned_iff s.params addr).mp))
    constructor
    · intro hprog
      rw [step_host he hprog, runHostOp, hostRead, htarget]
      rfl
    · intro hprog
      rw [step_host he hprog, runHostOp, hostWrite, htarget]
      rfl
  · intro hout
    have htarget : target off width = .elsewhere := target_elsewhere (mt hwindow.mp hout) width
    constructor
    · intro hprog
      rw [step_host he hprog, runHostOp, hostRead, htarget]
      rfl
    · intro hprog
      rw [step_host he hprog, runHostOp, hostWrite, htarget]

/-! ### BUSY = 0 -/

/-- Settles O56: BUSY reads 0 in IDLE only, where the invariant leaves nothing to send and no wait to pass. -/
theorem idleMeansComplete : Obligations.IdleMeansComplete := by
  intro s hs hbusy
  rw [readSlot, statusWord_busy, not_busy_iff] at hbusy
  obtain ⟨hrest, hop, hq, ht⟩ := hs.idle hbusy
  have hstate : s.status.state ≠ .initializing := fun h => nomatch hop.symm.trans (hs.disp.mp h)
  exact ⟨hq, ht, hop, hs.sentAll (by simp [hbusy]) hq, hrest, hstate⟩

end Sys2Proof.Machine
end

section
/-! Runs in which the display works: steps of the DPE, the tick and a bus that answers `ok`. What such runs leave alone, how
a wait ends, an item is sent and a text is read to its end (41_display_driver.md R77 to R80, R88). -/

namespace Sys2Proof.Machine

/-! ### Display work -/

/-- Any number of steps of display work lead from one state to another. -/
inductive DisplayWork : State → State → Prop where
  | refl (s : State) : DisplayWork s s
  | head {s u t : State} (e : Event) (he : e.isDisplayWork = true) (hstep : eventStep e s = .next u)
      (rest : DisplayWork u t) : DisplayWork s t

theorem DisplayWork.trans {s u t : State} (h : DisplayWork s u) (h' : DisplayWork u t) : DisplayWork s t := by
  induction h with
  | refl s => exact h'
  | head e he hstep _ ih => exact .head e he hstep (ih h')

theorem DisplayWork.dpe {s t : State} (h : dpeStep s = t) : DisplayWork s t :=
  .head .dpe rfl (congrArg Host.Outcome.next h) (.refl t)

theorem DisplayWork.bus (s : State) : DisplayWork s (busReturn .ok s) := .head (.bus .ok) rfl rfl (.refl _)

theorem DisplayWork.tick (s : State) (n : Nat) : DisplayWork s (advance s n) := .head (.tick n) rfl rfl (.refl _)

/-- The machine does the work when its schedule says so. -/
theorem DisplayWork.core_run {s t : State} (h : DisplayWork s t) :
    ∃ es : List Event, (∀ e ∈ es, e.isDisplayWork = true) ∧
      Sys2Proof.core.run es.length (s.scheduled es) = .next t := by
  induction h with
  | refl s => exact ⟨[], nofun, rfl⟩
  | head e he hstep _ ih =>
    obtain ⟨es, hes, hrun⟩ := ih
    exact ⟨e :: es, List.forall_mem_cons.mpr ⟨he, hes⟩,
      (run_scheduled_cons (eventStep_scheduled es hstep)).trans hrun⟩

/-- A step of display work leaves the parameters and host memory alone, so every read too (20_memory.md R39). -/
theorem memRead_of_displayStep {e : Event} {s t : State} (he : e.isDisplayWork = true) (h : eventStep e s = .next t)
    (a : Word) : memRead t a = memRead s a := by
  cases e with
  | dpe =>
    cases h
    obtain ⟨hp, -, -, -, hm, -⟩ := dpeStep_frame s
    exact memRead_congr hp hm a
  | bus r =>
    cases h
    obtain ⟨hp, -, -, -, hm, -⟩ := busReturn_frame r s
    exact memRead_congr hp hm a
  | tick n => cases h; rfl
  | host | issue op | store a b | dec | edge | reset => cases he

theorem DisplayWork.memRead {s t : State} (h : DisplayWork s t) (a : Word) : memRead t a = memRead s a := by
  induction h with
  | refl s => rfl
  | head e he hstep _ ih => exact ih.trans (memRead_of_displayStep he hstep a)

/-! ### A wait, and an item -/

/-- From any tick on, one advance brings the 32-bit count of the ticks since `t0` to its greatest value. -/
theorem exists_ticksSince_max (clock : Nat) (t0 : Word) :
    ∃ n, (BitVec.ofNat 32 (clock + n) - t0).toNat = 2 ^ 32 - 1 := by
  refine ⟨2 ^ 32 - 1 - (BitVec.ofNat 32 clock - t0).toNat, ?_⟩
  have ht0 := t0.isLt
  simp only [BitVec.toNat_sub, BitVec.toNat_ofNat]
  omega

/-- A wait the tick can count can be brought to its end (41_display_driver.md R75, R79). -/
theorem displayWork_wait {s : State} (hp : s.dpe.phase = .prewait ∨ s.dpe.phase = .wait)
    (hd : s.dpe.dcur + 1 < 2 ^ 32) :
    ∃ n, DisplayWork s { advance s n with dpe := { s.dpe with phase := .issue } } := by
  obtain ⟨n, hn⟩ := exists_ticksSince_max s.clock s.dpe.t0
  have hover : s.dpe.dcur + 1 ≤ ((advance s n).now - s.dpe.t0).toNat := by
    rw [State.now, advance_clock, hn]; omega
  have hstep : dpeStep (advance s n) = { advance s n with dpe := { s.dpe with phase := .issue } } := by
    rw [dpeStep_wait (s := advance s n) hp, waitStep_over (s := advance s n) hover, advance_dpe]
  exact ⟨n, (DisplayWork.tick s n).trans (.dpe hstep)⟩

/-- The head item can be sent: issued, returned and its gap waited for, with the rest of the items and the text pointer
left as they were (41_display_driver.md R77 to R79). -/
theorem displayWork_item {s : State} (hp : s.dpe.phase = .issue) {it : Item} {rest : List Item}
    (hq : s.dpe.q = it :: rest) (hgap : it.gap + 1 < 2 ^ 32) :
    ∃ t, DisplayWork s t ∧ t.dpe.phase = .issue ∧ t.dpe.q = rest ∧ t.dpe.txt = s.dpe.txt ∧
      sentSince t.log = sentSince s.log ++ [it] := by
  have hreturn := busReturn_xfer (s := issueItem it s) rfl hq .ok
  obtain ⟨n, hwait⟩ := displayWork_wait (s := busReturn .ok (issueItem it s)) (.inr (by rw [hreturn]))
    (by rw [hreturn]; exact hgap)
  refine ⟨_, ((DisplayWork.dpe (dpeStep_item hp hq)).trans (DisplayWork.bus _)).trans hwait, rfl, ?_, ?_, ?_⟩
  · simp [hreturn]
  · simp [hreturn]
  · simp [hreturn, transactionOf]

/-! ### A text -/

/-- Host memory holds `text` from `a` on, in admitted memory, ended by its terminator (41_display_driver.md R88). -/
def HoldsText (s : State) : Word → List Byte → Prop
  | a, []        => memRead s a = some 0
  | a, c :: text => memRead s a = some c ∧ c ≠ 0 ∧ HoldsText s (a + 1) text

/-- The text is held when each of its bytes and its terminator are where they belong. -/
theorem holdsText_of_bytes {s : State} {text : List Byte} {a : Word} (hne : ∀ c ∈ text, c ≠ 0)
    (hbytes : ∀ k (h : k < text.length), memRead s (a + BitVec.ofNat 32 k) = some text[k])
    (hend : memRead s (a + BitVec.ofNat 32 text.length) = some 0) : HoldsText s a text := by
  induction text generalizing a with
  | nil => simpa [HoldsText] using hend
  | cons c text ih =>
    have hnext : ∀ k, a + 1 + BitVec.ofNat 32 k = a + BitVec.ofNat 32 (k + 1) := by
      intro k
      rw [Nat.add_comm, BitVec.ofNat_add, ← BitVec.add_assoc]
      rfl
    obtain ⟨hc, htext⟩ := List.forall_mem_cons.mp hne
    refine ⟨by simpa using hbytes 0 (Nat.succ_pos _), hc, ih htext (fun k h => ?_) ?_⟩
    · rw [hnext]; exact hbytes (k + 1) (Nat.succ_lt_succ h)
    · rw [hnext]; exact hend

/-- Display work leaves a text where it is. -/
theorem HoldsText.keep {s t : State} (h : DisplayWork s t) {text : List Byte} {a : Word} (ht : HoldsText s a text) :
    HoldsText t a text := by
  induction text generalizing a with
  | nil => exact (h.memRead a).trans ht
  | cons c text ih =>
    obtain ⟨hread, hc, hrest⟩ := ht
    exact ⟨(h.memRead a).trans hread, hc, ih hrest⟩

/-- At the terminator the DPE ends the text, then the command. -/
theorem displayWork_endText {s : State} {a : Word} (hp : s.dpe.phase = .issue) (hq : s.dpe.q = [])
    (ht : s.dpe.txt = some a) (hread : memRead s a = some 0) :
    ∃ t, DisplayWork s t ∧ t.dpe.phase = .idle ∧ t.log = s.log := by
  have hend : dpeStep s = { s with dpe := { s.dpe with txt := none } } := by
    rw [dpeStep_text hp hq ht, textStep_terminator hread]
  have hcomplete := dpeStep_complete (s := { s with dpe := { s.dpe with txt := none } }) hp hq rfl
  exact ⟨_, (DisplayWork.dpe hend).trans (DisplayWork.dpe hcomplete), rfl, rfl⟩

/-- Any other byte is read and sent, and the pointer is then at the rest of the text. -/
theorem displayWork_textByte {s : State} {a : Word} {c : Byte} (hp : s.dpe.phase = .issue) (hq : s.dpe.q = [])
    (ht : s.dpe.txt = some a) (hread : memRead s a = some c) (hc : c ≠ 0) :
    ∃ t, DisplayWork s t ∧ t.dpe.phase = .issue ∧ t.dpe.q = [] ∧ t.dpe.txt = some (a + 1) ∧
      sentSince t.log = sentSince s.log ++ [dataItem c] := by
  have hbyte : dpeStep s = { s with dpe := { s.dpe with q := [dataItem c], txt := some (a + 1) } } := by
    rw [dpeStep_text hp hq ht, textStep_byte hread hc]
  obtain ⟨t, hwork, h⟩ := displayWork_item (it := dataItem c) (rest := [])
    (s := { s with dpe := { s.dpe with q := [dataItem c], txt := some (a + 1) } }) hp rfl
    (by simp [dataItem, Config.settleMs])
  exact ⟨t, (DisplayWork.dpe hbyte).trans hwork, h⟩

/-- A text held in host memory can be sent to its end, by induction on the text. -/
theorem displayWork_text {text : List Byte} {s : State} {a : Word} (hp : s.dpe.phase = .issue) (hq : s.dpe.q = [])
    (ht : s.dpe.txt = some a) (htext : HoldsText s a text) :
    ∃ t, DisplayWork s t ∧ t.dpe.phase = .idle ∧ sentSince t.log = sentSince s.log ++ text.map dataItem := by
  induction text generalizing s a with
  | nil =>
    obtain ⟨t, hwork, hidle, hlog⟩ := displayWork_endText hp hq ht htext
    exact ⟨t, hwork, hidle, by simp [hlog]⟩
  | cons c text ih =>
    obtain ⟨hread, hc, hrest⟩ := htext
    obtain ⟨u, hbyte, hp', hq', ht', hsent⟩ := displayWork_textByte hp hq ht hread hc
    obtain ⟨t, hwork, hidle, hsent'⟩ := ih hp' hq' ht' (hrest.keep hbyte)
    exact ⟨t, hbyte.trans hwork, hidle, by simp [hsent', hsent]⟩

/-- Settles O60: the accepted WTEXT reads from ARG, and its text can be sent to its end. -/
theorem wtextSendsTheString : Obligations.WtextSendsTheString := by
  intro s text hidle hne hbytes hend
  have haccept : exec .wtext s = .next (accept .wtext [] (some s.arg) s) := by
    rw [exec, execWtext, offer, (not_busy_iff _).mpr hidle]
    rfl
  have hheld : HoldsText (accept .wtext [] (some s.arg) s) s.arg text := holdsText_of_bytes hne hbytes hend
  obtain ⟨t, hwork, hdone, hsent⟩ := displayWork_text rfl rfl rfl hheld
  obtain ⟨es, hes, hrun⟩ := hwork.core_run
  exact ⟨_, es, t, haccept, hes, hrun, hdone, hsent⟩

end Sys2Proof.Machine
end

section
/-! The command word (30_encoding.md R50 to R58): encoding undoes decoding, and the words the decoder rejects, by their
fields. -/

namespace Sys2Proof

/-! ### Encoding and decoding -/

/-- The word of a command names the command's opcode and passes its mask check (30_encoding.md R51, R52, R58). -/
theorem encode_passes_mask (i : Instr) : Laws.Mask.Statement i :=
  match i with
  | .init           => Laws.Mask.init
  | .clear          => Laws.Mask.clear
  | .setcur row col => Laws.Mask.setcur row col
  | .sendcmd b      => Laws.Mask.sendcmd b
  | .senddata b     => Laws.Mask.senddata b
  | .wtext          => Laws.Mask.wtext
  | .wint base      => Laws.Mask.wint base

/-- The fields A and B of a command's word hold all its operands (30_encoding.md R55). -/
theorem withFields_encode (i : Instr) : i.opcode.withFields (fieldA (encode i)) (fieldB (encode i)) = i := by
  cases i <;> simp [encode, Instr.opcode, Opcode.withFields]

/-- An encoded command decodes to itself, operands and all. -/
theorem decode_encode (i : Instr) : decode (encode i) = .ok i := by
  obtain ⟨hmask, hop⟩ := encode_passes_mask i
  exact (decode_eq_ok_iff _ _).mpr ⟨i.opcode, (opcodeOf_eq_some_iff _ _).mp hop, hmask, (withFields_encode i).symm⟩

/-- A word that passes the mask check of an opcode holds nothing but that opcode's command: the fields the mask checks
are those `encode` writes 0 in. -/
theorem encode_withFields {op : Opcode} {w : Word} (h : w &&& op.mask = op.matchWord) :
    encode (op.withFields (fieldA w) (fieldB w)) = w := by
  obtain ⟨hop, hz, hb, ha⟩ := (mask_check_iff op w).mp h
  conv => rhs; rw [← packFields_fields w, hop, hz]
  cases op with
  | init | clear | wtext => rw [ha (by decide), hb (by decide)]; rfl
  | setcur => rfl
  | sendcmd | senddata | wint => rw [hb (by decide)]; rfl

end Sys2Proof

namespace Sys2Proof.Machine

/-- Settles O1: one direction is `encode_withFields`, the other `decode_encode`. -/
theorem decodeInvertsEncode : Obligations.DecodeInvertsEncode := by
  intro w i
  constructor
  · intro h
    obtain ⟨op, -, hmask, rfl⟩ := (decode_eq_ok_iff w i).mp h
    exact encode_withFields hmask
  · rintro rfl
    exact decode_encode i

/-! ### Rejected words -/

/-- The bytes that name an opcode are 1 to 7 (30_encoding.md R51, R53). -/
theorem exists_code_iff (b : Byte) : (∃ op : Opcode, b = op.code) ↔ 1 ≤ b.toNat ∧ b.toNat ≤ 7 := by
  constructor
  · rintro ⟨op, rfl⟩
    cases op <;> decide
  · rintro ⟨h₁, h₇⟩
    cases hb : opcodeOf b with
    | some op => exact ⟨op, (opcodeOf_eq_some_iff b op).mp hb⟩
    | none =>
      rcases (opcodeOf_eq_none_iff b).mp hb with rfl | h₈
      · exact absurd h₁ (by decide)
      · omega

/-- An opcode is known by its code. -/
theorem code_inj {op op' : Opcode} : op.code = op'.code ↔ op = op' := by
  cases op <;> cases op' <;> decide

/-- When a word with the opcode `op` fails the mask check, in the codes of 30_encoding.md R51: Z is not 0, or B is not 0
where only SETCUR uses it, or A is not 0 where INIT, CLEAR and WTEXT do not use it. -/
theorem mask_check_fails_iff {op : Opcode} {w : Word} (hop : fieldOP w = op.code) :
    w &&& op.mask ≠ op.matchWord ↔ fieldZ w ≠ 0 ∨ (fieldOP w ≠ 3 ∧ fieldB w ≠ 0) ∨
      ((fieldOP w = 1 ∨ fieldOP w = 2 ∨ fieldOP w = 6) ∧ fieldA w ≠ 0) := by
  have h₁ : fieldOP w = 1 ↔ op = .init := by rw [hop]; exact code_inj (op' := .init)
  have h₂ : fieldOP w = 2 ↔ op = .clear := by rw [hop]; exact code_inj (op' := .clear)
  have h₃ : fieldOP w = 3 ↔ op = .setcur := by rw [hop]; exact code_inj (op' := .setcur)
  have h₆ : fieldOP w = 6 ↔ op = .wtext := by rw [hop]; exact code_inj (op' := .wtext)
  simp only [ne_eq, mask_check_iff, h₁, h₂, h₃, h₆]
  simp only [hop, true_and, Classical.not_and_iff_not_or_not, Classical.not_imp]

/-- Settles O2: a reserved opcode is one that no opcode's code is, and a reserved field is a failed mask check. -/
theorem decoderRejectsExactlyReservedWords : Obligations.DecoderRejectsExactlyReservedWords := by
  intro w
  refine ⟨(decode_eq_reservedOpcode_iff w).trans (opcodeOf_eq_none_iff _), ?_, fun e => decode_error_cases⟩
  rw [decode_eq_reservedField_iff, ← exists_code_iff]
  constructor
  · rintro ⟨op, hop, hmask⟩
    exact ⟨⟨op, hop⟩, (mask_check_fails_iff hop).mp hmask⟩
  · rintro ⟨⟨op, hop⟩, hfields⟩
    exact ⟨op, hop, (mask_check_fails_iff hop).mpr hfields⟩

/-- Settles O3: the accepted words are those `encode` writes (30_encoding.md R58); in the rejected ones Z is 1, and OP is 9. -/
theorem wordsOfTheSpecDecode : Obligations.WordsOfTheSpecDecode := by
  have accepted (w : Word) (i : Instr) (h : encode i = w) : decode w = .ok i := (decodeInvertsEncode w i).mpr h
  refine ⟨accepted _ _ ?_, accepted _ _ ?_, accepted _ _ ?_, accepted _ _ ?_, accepted _ _ ?_, accepted _ _ ?_,
    accepted _ _ ?_, accepted _ _ ?_, ?reservedField, ?reservedOpcode⟩
  case reservedField => exact (decoderRejectsExactlyReservedWords _).2.1.mpr (by decide)
  case reservedOpcode => exact (decoderRejectsExactlyReservedWords _).1.mpr (by decide)
  all_goals decide

/-! ### Rejected words written to CMD -/

/-- On an idle block a word the decoder rejects records its error (41_display_driver.md R76, 60_exceptions.md R114). -/
theorem writeCmd_of_decode_error {s : State} {w : Word} {e : CmdError} (hp : s.dpe.phase = .idle)
    (h : decode w = .error e) : writeCmd w s = .next (raiseCmdError e s) := by
  simp only [writeCmd, (not_busy_iff _).mpr hp, h, Bool.false_eq_true, if_false]

/-- On an idle block a WINT whose base or conversion is rejected records that error (41_display_driver.md R89). -/
theorem execWint_of_rejected {s : State} {base : Byte} {e : CmdError} (hp : s.dpe.phase = .idle)
    (h : (baseInRange base = false ∧ e = .badBase) ∨
      (baseInRange base = true ∧ intToText s.arg base.toNat = .error e)) :
    execWint base s = .next (raiseCmdError e s) := by
  rw [execWint, offer, (not_busy_iff _).mpr hp]
  rcases h with ⟨hb, rfl⟩ | ⟨hb, hc⟩
  · simp only [hb, Bool.false_eq_true, if_false]
  · simp only [hb, hc, Bool.false_eq_true, if_false, if_true]

/-- Settles O6: the decoder and WINT reject by the same `raiseCmdError`, and the codes of R113 are `CmdError.code`. -/
theorem rejectedWordRecordsFirstCode : Obligations.RejectedWordRecordsFirstCode := by
  intro s w e code hp hcode hrej
  have hraise : writeCmd w s = .next (raiseCmdError e s) := by
    rcases hrej with hd | ⟨base, hd, hw⟩
    · exact writeCmd_of_decode_error hp hd
    · exact (writeCmd_of_decode hd).trans (execWint_of_rejected hp hw)
  have hc : code = e.code := by
    rcases hcode with ⟨rfl, rfl⟩ | ⟨rfl, rfl⟩ | ⟨rfl, rfl⟩ | ⟨rfl, rfl⟩ | ⟨rfl, rfl⟩ <;> rfl
  rw [hraise, hc]
  rfl

/-- Settles O7: a reserved opcode is rejected by the decoder, and recording the error writes STATUS only. -/
theorem reservedOpcodeSendsNothing : Obligations.ReservedOpcodeSendsNothing := by
  intro w
  constructor
  · intro hop
    have hd : decode w = .error .reservedOpcode := (decoderRejectsExactlyReservedWords w).1.mpr hop
    refine ⟨hd, fun s hp => ⟨_, writeCmd_of_decode_error hp hd, rfl, fun h₀ => ?_, rfl, rfl⟩⟩
    simp [raiseCmdError, Status.recordError, CmdError.code, h₀]
  · cases hd : decode w with
    | ok i => exact .inl ⟨i, rfl⟩
    | error e => exact .inr ⟨e, rfl⟩

end Sys2Proof.Machine
end

section
/-! The host's programs (30_encoding.md R59, R60; 43_host_interface.md R111): one poll, one pass of the reference loop, and
why a program whose CMD writes are guarded by WAITIDLE never causes CMDOVR. -/

namespace Sys2Proof.Machine

/-! ### The two operations that put something back on the program -/

section
variable (s : State) (ops : List HostOp)

/-- The answer to an access, on the state with the operation taken off, writes the value read only. -/
theorem answer_popped (v : Option Word) :
    answer (s.popped ops) v = { s.takeEvent with host := { s.host with rdata := v, prog := ops } } := rfl

/-- An operation that goes on with `pre` writes the value read and the program. -/
theorem prepend_answer_popped (pre : List HostOp) (v : Option Word) : prepend pre (answer (s.popped ops) v) =
    { s.takeEvent with host := { s.host with rdata := v, prog := pre ++ ops } } := rfl

/-- Taking the operation off does not change what a slot reads as. -/
theorem readSlot_popped (k : Slot) : readSlot (s.popped ops) k = readSlot s k := by
  cases k <;> simp [readSlot]

/-- BUSY reads 0 exactly in IDLE (10_state.md R17). -/
theorem readSlot_status_busy : (readSlot s .status).getLsbD 2 = decide (s.dpe.phase ≠ .idle) :=
  statusWord_busy s.status s.dpe.busy

end

/-- Settles O44: the poll reads STATUS, and BUSY in the word read decides whether it stays. -/
theorem waitIdlePollsUntilIdle : Obligations.WaitIdlePollsUntilIdle := by
  intro s ops he hprog
  rw [step_host he hprog]
  simp only [runHostOp, readSlot_popped, readSlot_status_busy, prepend_answer_popped]
  by_cases hp : s.dpe.phase = .idle
  · simp [hp, answer_popped]
  · simp [hp]

/-- Settles O45: what the pass puts on the program is `renderOps`, whose two command words are those of SETCUR 0, 0 and
WINT 10. -/
theorem renderLoopFollowsTheCounter : Obligations.RenderLoopFollowsTheCounter := by
  intro s last ops he hprog
  have hset : encode (.setcur 0 0) = 0x00000003 := by decide
  have hint : encode (.wint 10) = 0x00000A07 := by decide
  rw [step_host he hprog]
  simp only [runHostOp, readSlot, prepend_answer_popped, renderOps, Pseudo.expand, hset, hint]
  by_cases hc : s.dec.count = last
  · simp [hc]
  · simp [hc]

/-! ### Guarded programs -/

/-- A program guarded where BUSY may be 1 is guarded where BUSY is 0. -/
theorem guarded_mono {idle idle' : Bool} (hi : idle = true → idle' = true) {ops : List HostOp}
    (h : guarded idle ops = true) : guarded idle' ops = true := by
  induction ops with
  | nil => rfl
  | cons op ops ih =>
    cases op with
    | read off width => exact ih h
    | waitIdle => exact h
    | poll last => exact h
    | write off width v =>
      simp only [guarded] at h ⊢
      split at h
      · obtain ⟨hidle, hrest⟩ := Bool.and_eq_true_iff.mp h
        simp [*]
      · rw [if_neg ‹_›]; exact ih h

/-- A write of CMD is guarded where BUSY is known to be 0, and the rest is then guarded without that. -/
theorem guarded_writeCmd {idle : Bool} {off v : Word} {width : Width} {ops : List HostOp}
    (ht : target off width = .slot .cmd) :
    guarded idle (.write off width v :: ops) = true ↔ idle = true ∧ guarded false ops = true := by
  rw [guarded, if_pos ht, Bool.and_eq_true_iff]

theorem guarded_write_other {idle : Bool} {off v : Word} {width : Width} {ops : List HostOp}
    (ht : target off width ≠ .slot .cmd) : guarded idle (.write off width v :: ops) = guarded idle ops := by
  rw [guarded, if_neg ht]

theorem guarded_wr_cmd (idle : Bool) (v : Word) (ops : List HostOp) :
    guarded idle (.wr 0 v :: ops) = (idle && guarded false ops) := if_pos (target_slotOffset 0)

theorem guarded_wr_arg (idle : Bool) (v : Word) (ops : List HostOp) :
    guarded idle (.wr 1 v :: ops) = guarded idle ops := guarded_write_other (by decide)

theorem guarded_wr_status (idle : Bool) (v : Word) (ops : List HostOp) :
    guarded idle (.wr 2 v :: ops) = guarded idle ops := guarded_write_other (by decide)

/-- A pseudo-instruction may stand before any program that is guarded where BUSY may be 1. -/
theorem guarded_expand_append (p : Pseudo) {ops : List HostOp} (h : guarded false ops = true) :
    guarded false (p.expand ++ ops) = true := by
  cases p with
  | wchar b | cursor row col | puts addr | puti v | clrerr =>
    simpa only [Pseudo.expand, List.cons_append, List.nil_append, guarded, guarded_wr_cmd, guarded_wr_arg,
      guarded_wr_status, Bool.true_and] using h
  | lcdinit =>
    simpa only [Pseudo.expand, List.cons_append, List.nil_append, guarded, guarded_wr_cmd, Bool.true_and] using
      guarded_mono (fun _ => rfl) h

/-- So may any list of pseudo-instructions. -/
theorem guarded_flatMap_append (ps : List Pseudo) {ops : List HostOp} (h : guarded false ops = true) :
    guarded false (ps.flatMap Pseudo.expand ++ ops) = true := by
  induction ps with
  | nil => exact h
  | cons p ps ih =>
    rw [List.flatMap_cons, List.append_assoc]
    exact guarded_expand_append p ih

/-- The reference program is LCDINIT and the loop. -/
theorem guarded_referenceProgram : guarded false referenceProgram = true := guarded_expand_append .lcdinit rfl

/-- What a pass of the loop puts on the program needs no guard before it, like the loop itself. -/
theorem guarded_renderOps_append (last c : Word) {ops : List HostOp} (h : guarded false ops = true) :
    guarded false (renderOps last c ++ ops) = true := by
  unfold renderOps
  split
  · exact h
  · rw [List.append_assoc, List.append_assoc]
    exact guarded_expand_append _ (guarded_expand_append _ h)

/-! ### Steps of a guarded program -/

/-- The program still to run is guarded, where BUSY is known as the phase has it (30_encoding.md R60). -/
def State.Guarded (s : State) : Prop := guarded (decide (s.dpe.phase = .idle)) s.host.prog = true

section
variable {s t : State}

/-- A program guarded where BUSY may be 1 is guarded in every phase. -/
theorem State.Guarded.of_anyPhase (h : guarded false s.host.prog = true) : s.Guarded :=
  guarded_mono (fun hf => absurd hf Bool.false_ne_true) h

/-- What keeps the program and does not start a command keeps the program guarded. -/
theorem State.Guarded.congr (hs : s.Guarded) (hprog : t.host.prog = s.host.prog)
    (hidle : s.dpe.phase = .idle → t.dpe.phase = .idle) : t.Guarded := by
  unfold State.Guarded
  rw [hprog]
  exact guarded_mono (fun h => decide_eq_true (hidle (of_decide_eq_true h))) hs

/-- An agent other than the host keeps the host's program and starts no command. -/
theorem step_guarded_of_not_host (hs : s.Guarded) (hh : s.nextEvent ≠ .host) (hi : ∀ op, s.nextEvent ≠ .issue op)
    (h : step s = .next t) : t.Guarded := by
  have hs' : s.takeEvent.Guarded := hs.congr (by simp) (by simp)
  rcases step_cases h with ⟨he, -⟩ | ⟨op, he, -⟩ | ⟨_, _, -, rfl⟩ | ⟨-, rfl⟩ | ⟨-, rfl⟩ | ⟨-, rfl⟩ | ⟨_, -, rfl⟩ |
    ⟨r, -, rfl⟩ | ⟨-, rfl⟩
  · exact absurd he hh
  · exact absurd he (hi op)
  · exact hs'
  · obtain ⟨-, -, -, hhost, -⟩ := dpeStep_frame s.takeEvent
    exact hs'.congr (by rw [hhost]) fun hp => by rwa [dpeStep_disabled (.inl hp)]
  · obtain ⟨-, -, -, hdpe, hhost, -⟩ := decStep_frame s.takeEvent
    exact hs'.congr (by rw [hhost]) fun hp => by rwa [hdpe]
  · exact hs'
  · exact hs'
  · obtain ⟨-, -, -, hhost, -⟩ := busReturn_frame r s.takeEvent
    exact hs'.congr (by rw [hhost]) fun hp => by rwa [busReturn_ignored (by rw [hp]; decide)]
  · exact hs'.congr rfl fun _ => rfl

/-! What the host's accesses do to the program and to the sequencer. -/

theorem hostRead_prog_dpe (off : Word) (width : Width) (s : State) :
    (hostRead off width s).host.prog = s.host.prog ∧ (hostRead off width s).dpe = s.dpe := by
  unfold hostRead
  split <;> exact ⟨rfl, rfl⟩

theorem writeCmd_host {w : Word} (h : writeCmd w s = .next t) : t.host = s.host := by
  rcases writeCmd_cases h with ⟨-, rfl⟩ | ⟨-, _, rfl⟩ | ⟨-, rfl⟩ | ⟨-, _, -, rfl⟩ <;> rfl

theorem hostWrite_cmd {off : Word} {width : Width} (ht : target off width = .slot .cmd) (v : Word) (s : State) :
    hostWrite off width v s = writeCmd v s := by
  simp only [hostWrite, ht, writeSlot]

/-- Only a write of CMD reaches the sequencer. -/
theorem hostWrite_other {off v : Word} {width : Width} (ht : target off width ≠ .slot .cmd)
    (h : hostWrite off width v s = .next t) : t.host.prog = s.host.prog ∧ t.dpe = s.dpe := by
  unfold hostWrite at h
  split at h
  · rename_i k hk
    cases k with
    | cmd => exact absurd hk ht
    | arg | status | count | edge | reserved => cases h; exact ⟨rfl, rfl⟩
  · cases h; exact ⟨rfl, rfl⟩
  · cases h; exact ⟨rfl, rfl⟩

/-- A host step keeps its program guarded: a write of CMD uses up the guard, WAITIDLE stays until it may give one, and a
pass of the loop puts guarded writes on the program. -/
theorem step_guarded_of_host (hs : s.Guarded) (he : s.nextEvent = .host) (h : step s = .next t) : t.Guarded := by
  cases hprog : s.host.prog with
  | nil =>
    refine .of_anyPhase ?_
    rw [step_eq he, eventStep, hostStep_disabled (by rw [takeEvent_host, hprog])] at h
    cases h
    rw [takeEvent_host, hprog]
    rfl
  | cons op ops =>
    have hg : guarded (decide (s.dpe.phase = .idle)) (op :: ops) = true := hprog ▸ hs
    have keep (hops : guarded (decide (s.dpe.phase = .idle)) ops = true) (hp : t.host.prog = ops)
        (hd : t.dpe = s.dpe) : t.Guarded := by rwa [State.Guarded, hp, hd]
    cases op with
    | waitIdle =>
      rw [waitIdlePollsUntilIdle s ops he hprog] at h
      cases h
      by_cases hp : s.dpe.phase = .idle <;> simpa [State.Guarded, hp, guarded] using hg
    | poll last =>
      rw [step_host he hprog] at h
      cases h
      exact .of_anyPhase (guarded_renderOps_append last _ hg)
    | read off width =>
      rw [step_host he hprog] at h
      cases h
      obtain ⟨hp, hd⟩ := hostRead_prog_dpe off width (s.popped ops)
      exact keep hg hp (hd.trans (popped_dpe s ops))
    | write off width v =>
      rw [step_host he hprog, runHostOp] at h
      by_cases ht : target off width = .slot .cmd
      · rw [hostWrite_cmd ht] at h
        refine .of_anyPhase ?_
        rw [writeCmd_host h]
        exact ((guarded_writeCmd ht).mp hg).2
      · rw [guarded_write_other ht] at hg
        obtain ⟨hp, hd⟩ := hostWrite_other ht h
        exact keep hg hp (hd.trans (popped_dpe s ops))

/-- Where the program is guarded, the host's next operation is no write of CMD while BUSY = 1. -/
theorem State.Guarded.idle_of_writesNext (hs : s.Guarded) {w : Word} {ops : List HostOp}
    (hw : s.writesNext .cmd w ops) : s.dpe.phase = .idle := by
  obtain ⟨off, hprog, ht⟩ := hw
  rw [State.Guarded, hprog] at hs
  exact of_decide_eq_true ((guarded_writeCmd ht).mp hs).1

end

/-- Settles O46: pseudo-instructions are guarded by their expansions, every step keeps `State.Guarded`, and the one step
that sets CMDOVR writes CMD while BUSY = 1. -/
theorem pseudoProgramsNeverOverrun : Obligations.PseudoProgramsNeverOverrun := by
  refine ⟨fun ps => ⟨?_, guarded_flatMap_append ps guarded_referenceProgram⟩, fun s t hs hi h => ⟨?_, fun h₁ => ?_⟩⟩
  · simpa using guarded_flatMap_append ps (ops := []) rfl
  · by_cases he : s.nextEvent = .host
    · exact step_guarded_of_host hs he h
    · exact step_guarded_of_not_host hs he hi h
  · cases h₀ : s.status.cmdovr with
    | true => rfl
    | false =>
      obtain ⟨-, hbusy, w, ops, hw⟩ := (step_status h).cmdovr_set h₀ h₁
      exact absurd (State.Guarded.idle_of_writesNext hs hw) hbusy

end Sys2Proof.Machine
end

section
/-! The Integer-to-text Converter (40_int_to_text.md): the digits read back, the four answers of the conversion, and WINT,
which sends them. -/

namespace Sys2Proof.Machine

/-! ### Digits -/

/-- A digit byte shows its number (40_int_to_text.md R64). -/
theorem digitValue_digitByte {d : Nat} (h : d < 36) : digitValue (digitByte d) = d := by
  rw [digitValue, digitByte_toNat h]
  split <;> split at * <;> omega

/-- A digit byte is one of '0' to '9' and 'a' to 'z', so it is no sign (40_int_to_text.md R64). -/
theorem digitByte_range {d : Nat} (h : d < 36) :
    (0x30 ≤ (digitByte d).toNat ∧ (digitByte d).toNat ≤ 0x39) ∨
    (0x61 ≤ (digitByte d).toNat ∧ (digitByte d).toNat ≤ 0x7A) := by
  rw [digitByte_toNat h]
  split <;> omega

/-- One more digit at the end is one more step of Horner's rule. -/
theorem digitsValue_concat (base : Nat) (text : List Byte) (b : Byte) :
    digitsValue base (text ++ [b]) = digitsValue base text * base + digitValue b := by
  simp [digitsValue]

theorem digitsValue_singleton_zero (base : Nat) : digitsValue base [0x30] = 0 := by
  simp [digitsValue, digitValue]

section
variable {base m : Nat} (hb : 2 ≤ base) (hb' : base ≤ 36)
include hb hb'

/-- The loop's digits, read back, are the number they were taken from: quotient times base plus remainder. -/
theorem digitsValue_digitsLoop {fuel : Nat} (hm : m < 2 ^ fuel) : digitsValue base (digitsLoop fuel base m []) = m := by
  induction fuel generalizing m with
  | zero =>
    obtain rfl : m = 0 := by simpa using hm
    rfl
  | succ fuel ih =>
    by_cases h0 : m = 0
    · rw [h0, digitsLoop_zero]; rfl
    · have hquot : m / base < 2 ^ fuel := by
        rw [Nat.div_lt_iff_lt_mul (by omega)]
        calc m < 2 ^ fuel * 2 := by rwa [← Nat.pow_succ]
          _ ≤ 2 ^ fuel * base := Nat.mul_le_mul_left _ hb
      have hrem : m % base < 36 := Nat.lt_of_lt_of_le (Nat.mod_lt m (by omega)) hb'
      rw [digitsLoop_succ _ _ _ h0, digitsValue_concat, ih hquot, digitValue_digitByte hrem, Nat.div_add_mod']

/-- The digits of a magnitude, read back, are the magnitude (40_int_to_text.md R64). -/
theorem digitsValue_digits (hm : m < 2 ^ 32) : digitsValue base (digits base m) = m := by
  unfold digits
  split
  · rename_i h0
    rw [h0, digitsValue_singleton_zero]
  · exact digitsValue_digitsLoop hb hb' hm

/-- A character of a magnitude is a digit of the base. -/
theorem isDigit_of_mem_digits {b : Byte} (h : b ∈ digits base m) :
    ((0x30 ≤ b.toNat ∧ b.toNat ≤ 0x39) ∨ (0x61 ≤ b.toNat ∧ b.toNat ≤ 0x7A)) ∧ digitValue b < base := by
  obtain ⟨d, hd, rfl⟩ := mem_digits hb h
  have hd' : d < 36 := Nat.lt_of_lt_of_le hd hb'
  exact ⟨digitByte_range hd', by rwa [digitValue_digitByte hd']⟩

/-- A magnitude does not start with a sign. -/
theorem head?_digits_ne_minus : (digits base m).head? ≠ some 0x2D#8 := by
  intro h
  obtain ⟨hrange, -⟩ := isDigit_of_mem_digits hb hb' (List.mem_of_mem_head? h)
  revert hrange
  decide

/-- Only 0 is written with a leading zero (40_int_to_text.md R63, R64). -/
theorem digits_of_head?_zero (hm : m < 2 ^ 32) (h : (digits base m).head? = some 0x30) : digits base m = [0x30] := by
  unfold digits at h ⊢
  split at h
  · rw [if_pos ‹_›]
  · rename_i h0
    obtain ⟨d, rest, hpos, hlt, he⟩ := head_digitsLoop hb h0 hm
    rw [he, List.head?_cons, Option.some.injEq] at h
    have hd : digitValue (digitByte d) = d := digitValue_digitByte (Nat.lt_of_lt_of_le hlt hb')
    rw [h] at hd
    exact absurd hd (Nat.ne_of_lt hpos)

end

/-! ### The conversion -/

/-- A value that is not negative is below a power exactly when its magnitude is. -/
theorem natAbs_lt_pow_iff {z : Int} {base k : Nat} (hz : 0 ≤ z) : z.natAbs < base ^ k ↔ z < (base : Int) ^ k := by
  obtain ⟨m, rfl⟩ := Int.eq_ofNat_of_zero_le hz
  rw [Int.natAbs_natCast, ← Int.natCast_pow, Int.ofNat_lt]

section
variable {n : Word} {base : Nat}

theorem intToText_of_undefined (hn : n.toInt < 0) (hten : base ≠ 10) : intToText n base = .error .convUndefined :=
  if_pos ⟨hn, hten⟩

/-- A value that is not negative is its digits, when they are at most 11. -/
theorem intToText_of_fits (hb : 2 ≤ base) (hn : 0 ≤ n.toInt) (hlt : n.toInt < (base : Int) ^ 11) :
    intToText n base = .ok (digits base n.toInt.natAbs) := by
  refine intToText_eq_ok_iff.mpr ⟨.inl hn, ?_, by rw [if_neg (Int.not_lt.mpr hn), List.nil_append]⟩
  rwa [length_digits_le_iff hb (natAbs_toInt_lt n) (by decide), natAbs_lt_pow_iff hn]

theorem intToText_of_overflow (hb : 2 ≤ base) (hn : 0 ≤ n.toInt) (hle : (base : Int) ^ 11 ≤ n.toInt) :
    intToText n base = .error .convOverflow := by
  have hlong : ¬ (digits base n.toInt.natAbs).length ≤ 11 := by
    rwa [length_digits_le_iff hb (natAbs_toInt_lt n) (by decide), natAbs_lt_pow_iff hn, Int.not_lt]
  rw [intToText, if_neg fun h => Int.not_lt.mpr hn h.1, if_neg (Int.not_lt.mpr hn)]
  exact if_pos (Nat.succ_lt_succ (Nat.not_le.mp hlong))

/-- In base 10 a sign and the digits always fit: a magnitude of 32 bits has at most 10 digits (40_int_to_text.md R67). -/
theorem intToText_ten_of_neg (hn : n.toInt < 0) : intToText n 10 = .ok (0x2D#8 :: digits 10 n.toInt.natAbs) := by
  refine intToText_eq_ok_iff.mpr ⟨.inr rfl, ?_, by rw [if_pos hn]; rfl⟩
  have hlt := natAbs_toInt_lt n
  exact Nat.succ_le_succ ((length_digits_le_iff (by decide) hlt (by decide)).mpr (by omega))

/-- What the conversion can answer: one of the four, each for its own values and bases. -/
theorem intToText_cases (n : Word) (hb : 2 ≤ base) :
    (n.toInt < 0 ∧ base ≠ 10 ∧ intToText n base = .error .convUndefined) ∨
    (n.toInt < 0 ∧ base = 10 ∧ intToText n base = .ok (0x2D#8 :: digits base n.toInt.natAbs)) ∨
    (0 ≤ n.toInt ∧ n.toInt < (base : Int) ^ 11 ∧ intToText n base = .ok (digits base n.toInt.natAbs)) ∨
    (0 ≤ n.toInt ∧ (base : Int) ^ 11 ≤ n.toInt ∧ intToText n base = .error .convOverflow) := by
  rcases Int.lt_or_le n.toInt 0 with hn | hn
  · by_cases hten : base = 10
    · subst hten; exact .inr (.inl ⟨hn, rfl, intToText_ten_of_neg hn⟩)
    · exact .inl ⟨hn, hten, intToText_of_undefined hn hten⟩
  · rcases Int.lt_or_le n.toInt ((base : Int) ^ 11) with hlt | hle
    · exact .inr (.inr (.inl ⟨hn, hlt, intToText_of_fits hb hn hlt⟩))
    · exact .inr (.inr (.inr ⟨hn, hle, intToText_of_overflow hb hn hle⟩))

/-- A text is a sign and the digits of the magnitude in base 10, or the digits alone. -/
theorem text_cases {text : List Byte} (h : intToText n base = .ok text) :
    (n.toInt < 0 ∧ base = 10 ∧ text = 0x2D#8 :: digits base n.toInt.natAbs) ∨
    (0 ≤ n.toInt ∧ text = digits base n.toInt.natAbs) := by
  obtain ⟨hdef, -, rfl⟩ := intToText_eq_ok_iff.mp h
  by_cases hn : n.toInt < 0
  · exact .inl ⟨hn, hdef.resolve_left (Int.not_le.mpr hn), by rw [if_pos hn]; rfl⟩
  · exact .inr ⟨Int.not_lt.mp hn, by rw [if_neg hn]; rfl⟩

/-- What stands after the sign is the digits of the magnitude. -/
theorem unsigned_text {text : List Byte} (h : intToText n base = .ok text) :
    (if n.toInt < 0 then text.tail else text) = digits base n.toInt.natAbs := by
  rcases text_cases h with ⟨hn, -, rfl⟩ | ⟨hn, rfl⟩
  · rw [if_pos hn, List.tail_cons]
  · rw [if_neg (Int.not_lt.mpr hn)]

end

/-- Settles O15: a text is a sign or none and digits, and digits read back as the magnitude. -/
theorem textOfIntegerReadsBack : Obligations.TextOfIntegerReadsBack := by
  intro n base text hb hb' h
  have hmag := natAbs_toInt_lt n
  have hval := digitsValue_digits hb hb' hmag
  refine ⟨?_, ?_, (intToText_eq_ok_iff.mp h).2.1⟩
  · rcases text_cases h with ⟨hn, -, rfl⟩ | ⟨hn, rfl⟩
    · rw [textValue, List.head?_cons, if_pos rfl, List.tail_cons, hval]
      omega
    · rw [textValue, if_neg (head?_digits_ne_minus hb hb'), hval]
      omega
  · rcases text_cases h with ⟨-, -, rfl⟩ | ⟨-, rfl⟩
    · simp
    · exact one_le_length_digits hb hmag

/-- Settles O16: the two errors are two of the four answers, whose conditions exclude each other. -/
theorem conversionFailsExactlyWhen : Obligations.ConversionFailsExactlyWhen := by
  intro n base hb _
  rcases intToText_cases n hb with ⟨hn, hten, h⟩ | ⟨hn, hten, h⟩ | ⟨hn, hlt, h⟩ | ⟨hn, hle, h⟩
  all_goals rw [h]
  · refine ⟨iff_of_true rfl ⟨hn, hten⟩, iff_of_false nofun fun hc => Int.not_le.mpr hn hc.1, fun e he => ?_⟩
    cases he
    exact .inl rfl
  · exact ⟨iff_of_false nofun fun hc => hc.2 hten, iff_of_false nofun fun hc => Int.not_le.mpr hn hc.1, nofun⟩
  · exact ⟨iff_of_false nofun fun hc => Int.not_lt.mpr hn hc.1,
      iff_of_false nofun fun hc => Int.not_le.mpr hlt hc.2, nofun⟩
  · refine ⟨iff_of_false nofun fun hc => Int.not_lt.mpr hn hc.1, iff_of_true rfl ⟨hn, hle⟩, fun e he => ?_⟩
    cases he
    exact .inr rfl

/-- Settles O18: what follows the sign is the digits of the magnitude, and those are of the base without a leading zero. -/
theorem digitsAreOfTheBase : Obligations.DigitsAreOfTheBase := by
  intro n base text hb hb' h
  have hmag := natAbs_toInt_lt n
  rw [unsigned_text h]
  refine ⟨fun b => isDigit_of_mem_digits hb hb', digitsValue_digits hb hb' hmag, fun hzero => ?_⟩
  have hd := digits_of_head?_zero hb hb' hmag hzero
  have hm : n.toInt.natAbs = 0 := by
    rw [← digitsValue_digits hb hb' hmag, hd, digitsValue_singleton_zero]
  rcases text_cases h with ⟨hn, -, -⟩ | ⟨-, rfl⟩
  · omega
  · exact hd

/-- Settles O19: digits are no sign, and base 10 always gives a text. -/
theorem signIsShownExactlyWhenNegative : Obligations.SignIsShownExactlyWhenNegative := by
  refine ⟨fun n base text hb hb' h => ?_, fun n text hn h => ?_, fun n => ?_, rfl⟩
  · rcases text_cases h with ⟨hn, -, rfl⟩ | ⟨hn, rfl⟩
    · exact iff_of_true rfl hn
    · exact iff_of_false (head?_digits_ne_minus hb hb') (Int.not_lt.mpr hn)
  · cases (intToText_ten_of_neg hn).symm.trans h
    exact ⟨rfl, digitsValue_digits (by decide) (by decide) (natAbs_toInt_lt n)⟩
  · rcases Int.lt_or_le n.toInt 0 with hn | hn
    · exact ⟨_, intToText_ten_of_neg hn⟩
    · have := BitVec.toInt_lt (x := n)
      exact ⟨_, intToText_of_fits (by decide) hn (by omega)⟩

/-- Settles O17: 0 is below every power of the base, and its digits are "0". -/
theorem zeroIsOneCharacter : Obligations.ZeroIsOneCharacter :=
  fun _ hb _ => intToText_of_fits (n := 0) hb (Int.le_refl 0) (Int.pow_pos (by omega))

/-! ### WINT -/

theorem baseInRange_iff {base : Byte} : baseInRange base = true ↔ 2 ≤ base.toNat ∧ base.toNat ≤ 36 := decide_eq_true_iff

/-- On an idle block a WINT whose base is in range and whose value has a text is accepted with it
(41_display_driver.md R89). -/
theorem execWint_of_text {s : State} {base : Byte} {text : List Byte} (hp : s.dpe.phase = .idle)
    (hb : baseInRange base = true) (h : intToText s.arg base.toNat = .ok text) :
    execWint base s = .next (accept (.wint base) (text.map dataItem) none s) := by
  rw [execWint, offer, (not_busy_iff _).mpr hp]
  simp only [hb, h, Bool.false_eq_true, if_false, if_true]

/-- Settles O12: under these conditions the conversion answers a text, and `dataItem` has R89's gap. -/
theorem wintIsAccepted : Obligations.WintIsAccepted := by
  intro s base hp hb hb' hdef hlt
  obtain ⟨text, h⟩ : ∃ text, intToText s.arg base.toNat = .ok text := by
    rcases intToText_cases s.arg hb with ⟨hn, hten, -⟩ | ⟨-, -, h⟩ | ⟨-, -, h⟩ | ⟨-, hle, -⟩
    · exact absurd hdef (not_or.mpr ⟨Int.not_le.mpr hn, hten⟩)
    · exact ⟨_, h⟩
    · exact ⟨_, h⟩
    · exact absurd hlt (Int.not_lt.mpr hle)
  obtain ⟨hval, -, hlen⟩ := textOfIntegerReadsBack s.arg base.toNat text hb hb' h
  exact ⟨text, h, hlen, hval, execWint_of_text hp (baseInRange_iff.mpr ⟨hb, hb'⟩) h⟩

/-- Settles O13: each of the three is a rejection of WINT, and R113's codes are `CmdError.code`. -/
theorem wintIsRejectedInOrder : Obligations.WintIsRejectedInOrder := by
  intro s base code hp hrej
  rcases hrej with ⟨hb, rfl⟩ | ⟨hb, hb', hn, hten, rfl⟩ | ⟨hb, hb', hn, hle, rfl⟩
  · exact execWint_of_rejected hp (.inl ⟨decide_eq_false hb, rfl⟩)
  · exact execWint_of_rejected hp (.inr ⟨baseInRange_iff.mpr ⟨hb, hb'⟩, intToText_of_undefined hn hten⟩)
  · exact execWint_of_rejected hp (.inr ⟨baseInRange_iff.mpr ⟨hb, hb'⟩, intToText_of_overflow hb hn hle⟩)

end Sys2Proof.Machine
end

section
/-! A word written to CMD, and the accept of each command whose items its word fixes (41_display_driver.md R76, R82 to R88). -/

namespace Sys2Proof.Machine

/-! ### The CMD write -/

/-- A table row's bits that name a command make a word that decodes to it (30_encoding.md R57). -/
theorem decode_of_decodeTableWord {nbits w : Nat} {i : Instr} (h : decodeTableWord nbits w = some i) :
    decode (tableWord nbits w) = .ok i := by
  unfold decodeTableWord at h
  split at h
  · split at h
    · rename_i hd
      cases h
      exact hd
    · cases h
  · cases h

/-- Settles O4: slot 0 is CMD, and a CMD write of a command's word executes the command, busy or not. -/
theorem stepRunsTheWrittenCommand : Obligations.StepRunsTheWrittenCommand := by
  constructor
  · intro s w ops he hprog
    have hstep : step s = writeCmd w (s.popped ops) := step_wr he hprog
    exact ⟨hstep, fun i hd => hstep.trans (writeCmd_of_decode hd)⟩
  · intro s nbits w i hd
    exact (step_withFetchWord s nbits w).trans (writeCmd_of_decode (decode_of_decodeTableWord hd))

/-! ### Accepts -/

/-- A command offered to an idle sequencer is taken (41_display_driver.md R76). -/
theorem offer_of_idle {s : State} (hp : s.dpe.phase = .idle) (take : State → State) :
    offer take s = .next (take s) := by
  rw [offer, (not_busy_iff _).mpr hp]
  rfl

/-- Settles O8: INIT is taken, and `initItems` is the table of R82. -/
theorem initIsAccepted : Obligations.InitIsAccepted := fun _ hp => offer_of_idle hp _

/-- Settles O11: WTEXT is taken, with ARG as its text pointer. -/
theorem wtextIsAccepted : Obligations.WtextIsAccepted := fun _ hp => offer_of_idle hp _

/-- Settles O9: each of the three is taken, with the one item of its rule. -/
theorem oneByteCommandsAreAccepted : Obligations.OneByteCommandsAreAccepted := by
  rintro s i it hp (⟨rfl, rfl⟩ | ⟨b, rfl, rfl⟩ | ⟨b, rfl, rfl⟩)
  case inl => exact offer_of_idle hp (accept .clear clearItems none)
  case inr.inl => exact offer_of_idle hp (accept (.sendcmd b) [cmdItem b] none)
  case inr.inr => exact offer_of_idle hp (accept (.senddata b) [dataItem b] none)

theorem setcurByte_row0 (col : Byte) : setcurByte 0 col = 0x80 ||| col := if_pos rfl

theorem setcurByte_row1 (col : Byte) : setcurByte 1 col = 0xC0 ||| col := rfl

/-- On a row other than 0 and 1 the column is sent as it is (41_display_driver.md R85). -/
theorem setcurByte_otherRow {row : Byte} (h₀ : row ≠ 0) (h₁ : row ≠ 1) (col : Byte) : setcurByte row col = col := by
  rw [setcurByte, if_neg h₀, if_neg h₁]

/-- Settles O10: SETCUR is taken, with the byte `setcurByte` makes of its row and column. -/
theorem setcurIsAccepted : Obligations.SetcurIsAccepted := by
  intro s row col hp
  refine ⟨_, setcurByte row col, offer_of_idle hp (accept (.setcur row col) [cmdItem (setcurByte row col)] none),
    ?_, ?_, fun h₀ h₁ => setcurByte_otherRow h₀ h₁ col, rfl⟩
  · rintro rfl
    exact setcurByte_row0 col
  · rintro rfl
    exact setcurByte_row1 col

end Sys2Proof.Machine
end

section
/-! The bytes of a frame, bit by bit (41_display_driver.md R68 to R71): a nibble of the display byte over the control bits. -/

namespace Sys2Proof.Machine

/-- The high nibble of `x` over the control bits of 41_display_driver.md R68: what each byte of a frame is. -/
def frameByte (x : Byte) (bl en rs : BitVec 1) : Byte := (x &&& 0xF0) ||| ctl bl en rs

/-- A frame sends the byte's two nibbles, each with the strobe up and then down (41_display_driver.md R69, R70). -/
theorem frameOf_eq_frameBytes (bl rs : BitVec 1) (b : Byte) :
    frameOf bl b rs = [frameByte b bl 1 rs, frameByte b bl 0 rs, frameByte (b <<< 4) bl 1 rs, frameByte (b <<< 4) bl 0 rs] :=
  rfl

section
variable (x : Byte) (bl en rs : BitVec 1)

/-- Bits 7:4 of a frame byte are the high nibble of the byte it is made from. -/
theorem frameByte_nibble : (frameByte x bl en rs).extractLsb' 4 4 = x.extractLsb' 4 4 := by
  apply BitVec.eq_of_getLsbD_eq
  intro i hi
  have hbit : i = 0 ∨ i = 1 ∨ i = 2 ∨ i = 3 := by omega
  rcases hbit with rfl | rfl | rfl | rfl <;> simp [frameByte]

/-- Shifted left by 4, a byte has its low nibble there. -/
theorem shiftLeft4_nibble : (x <<< 4).extractLsb' 4 4 = x.extractLsb' 0 4 := by
  apply BitVec.eq_of_getLsbD_eq
  intro i hi
  have hbit : i = 0 ∨ i = 1 ∨ i = 2 ∨ i = 3 := by omega
  rcases hbit with rfl | rfl | rfl | rfl <;> simp

theorem frameByte_strobe : (frameByte x bl en rs).getLsbD 2 = en[0] := by simp [frameByte]

/-- Bits 3, 1 and 0 of a frame byte: the backlight level, RW = 0 and the register-select bit. -/
theorem frameByte_control : (frameByte x bl en rs).extractLsb' 3 1 = bl ∧
    (frameByte x bl en rs).getLsbD 1 = false ∧ (frameByte x bl en rs).extractLsb' 0 1 = rs := by
  refine ⟨BitVec.eq_of_getLsbD_eq fun i hi => ?_, ?_, BitVec.eq_of_getLsbD_eq fun i hi => ?_⟩
  · obtain rfl : i = 0 := Nat.lt_one_iff.mp hi
    simp [frameByte]
  · simp [frameByte]
  · obtain rfl : i = 0 := Nat.lt_one_iff.mp hi
    simp [frameByte]

end

/-- Settles O20: two frame bytes are made from the byte, two from the byte shifted left by 4, and the strobe alternates. -/
theorem frameBytesBitByBit : Obligations.FrameBytesBitByBit := by
  intro bl rs b
  refine ⟨_, _, _, _, frameOf_eq_frameBytes bl rs b, frameByte_nibble b bl 1 rs, frameByte_nibble b bl 0 rs,
    (frameByte_nibble (b <<< 4) bl 1 rs).trans (shiftLeft4_nibble b),
    (frameByte_nibble (b <<< 4) bl 0 rs).trans (shiftLeft4_nibble b),
    frameByte_strobe b bl 1 rs, frameByte_strobe b bl 0 rs, frameByte_strobe (b <<< 4) bl 1 rs,
    frameByte_strobe (b <<< 4) bl 0 rs, ?_⟩
  simp only [List.forall_mem_cons, frameByte_control, List.not_mem_nil, false_implies, implies_true, and_self]

end Sys2Proof.Machine
end

section
/-! The steps of the sequencer that are enabled, and the return of the transport, as steps of the machine
(41_display_driver.md R77 to R80). -/

namespace Sys2Proof.Machine

/-! ### What a return and a completion write to STATUS -/

/-- Only a timeout sets BUSTO (41_display_driver.md R73). -/
theorem recordReturn_eq (st : Status) (r : BusResult) :
    st.recordReturn r = { st with busto := st.busto || decide (r = .timeout) } := by
  cases r <;> simp [Status.recordReturn]

/-- Only the completion of INIT writes STATE (41_display_driver.md R83). -/
theorem recordCompletion_eq (st : Status) (op : Option Opcode) :
    st.recordCompletion op = { st with state := if op = some .init then .ready else st.state } := by
  unfold Status.recordCompletion
  split
  · rw [if_pos rfl]
  · rw [if_neg ‹_›]

/-! ### Steps -/

/-- Settles O21: the step issues the head item, and the transaction of R72 is `transactionOf`. -/
theorem issueStartsOneTransaction : Obligations.IssueStartsOneTransaction := by
  intro s it rest he hp hq
  rw [step_dpe he, dpeStep_item (by simpa using hp) (by simpa using hq)]
  simp only [issueItem, observe, transactionOf, takeEvent_dpe, takeEvent_params, takeEvent_clock, takeEvent_log]
  rfl

/-- Settles O22: the newest observation is the transaction in flight, and it gets the return. -/
theorem returnStartsTheGap : Obligations.ReturnStartsTheGap := by
  intro s it rest tx log r he hp hq hlog
  rw [step_eq he, eventStep, busReturn_xfer (by simpa using hp) (by simpa using hq)]
  simp only [recordReturn_eq, takeEvent_status, takeEvent_dpe, takeEvent_now, takeEvent_clock, takeEvent_log, hlog,
    recordTxReturn_tx]

/-- Settles O24: the two wait phases have one step, and it ends the wait. -/
theorem waitEndsAfterItsTicks : Obligations.WaitEndsAfterItsTicks := by
  intro s he hp hw
  rw [step_dpe he, dpeStep_wait (by simpa using hp), waitStep_over (by simpa using hw), takeEvent_dpe]

/-- Settles O25: the step is the completion, and BUSY reads 0 in IDLE. -/
theorem completionEndsTheCommand : Obligations.CompletionEndsTheCommand := by
  intro s he hp hq ht
  refine ⟨complete s.takeEvent, ?_, ?_, ?_⟩
  · rw [step_dpe he, dpeStep_complete (by simpa using hp) (by simpa using hq) (by simpa using ht)]
  · rw [readSlot_status_busy, complete_dpe]
    rfl
  · simp only [complete, recordCompletion_eq, takeEvent_status, takeEvent_dpe]

end Sys2Proof.Machine
end

section
/-! Why transactions are spaced (41_display_driver.md R74, R90): the observation has rested wherever it goes on. -/

namespace Sys2Proof.Machine

/-- What was observed first is an observation R90 allows too. -/
theorem LogOk.older {bl : BitVec 1} {newer older : List Obs} (h : LogOk bl (newer ++ older)) : LogOk bl older := by
  induction newer with
  | nil => exact h
  | cons o newer ih =>
    cases o with
    | accepted i arg c =>
      obtain ⟨-, -, h⟩ := h
      exact ih h
    | tx t =>
      obtain ⟨-, -, h⟩ := h
      exact ih h
    | reset c => exact ih h

/-- An observation that goes on with an accept has not rested before the accept. -/
theorem le_of_restedAt_accepted {i : Instr} {arg : Word} {c k : Nat} {log : List Obs}
    (h : RestedAt (.accepted i arg c :: log) k) : c ≤ k := by
  obtain ⟨r, hr, hle⟩ := h
  have hc : c ≤ r := by
    cases hr
    split <;> omega
  exact Nat.le_trans hc hle

/-- A transaction has rested once it has returned and its gap is over. -/
theorem restedAt_tx {t : Transaction} {k : Nat} {log : List Obs} (h : RestedAt (.tx t :: log) k) :
    ∃ c r, t.ret = some (c, r) ∧ c + t.item.gap + 1 ≤ k := by
  obtain ⟨n, hn, hle⟩ := h
  obtain ⟨⟨c, r⟩, hret, rfl⟩ := Option.map_eq_some_iff.mp hn
  exact ⟨c, r, hret, hle⟩

/-- What has rested after some accepts had rested before them, as each accept waits for it. -/
theorem restedAt_before_accepts {bl : BitVec 1} {between older : List Obs} {k : Nat}
    (hacc : ∀ o ∈ between, ∃ i arg c, o = .accepted i arg c) (hok : LogOk bl (between ++ older))
    (h : RestedAt (between ++ older) k) : RestedAt older k := by
  induction between generalizing k with
  | nil => exact h
  | cons o between ih =>
    obtain ⟨⟨i, arg, c, rfl⟩, hacc'⟩ := List.forall_mem_cons.mp hacc
    obtain ⟨hrest, -, hok⟩ := hok
    exact ih hacc' hok (hrest.mono (le_of_restedAt_accepted h))

/-- Settles O57: the second transaction starts when the observation before it has rested, so when the first has. -/
theorem transactionsAreSpaced : Obligations.TransactionsAreSpaced := by
  intro s newer between older t₁ t₂ hs hlog hacc
  have hok := hs.log
  rw [hlog, List.append_assoc] at hok
  obtain ⟨-, hrest, hok⟩ := hok.older
  obtain ⟨c, r, hret, hle⟩ := restedAt_tx (restedAt_before_accepts hacc hok hrest)
  obtain ⟨hwell, -, -⟩ := hok.older
  exact ⟨c, r, hret, hwell.order c r hret, hle⟩

end Sys2Proof.Machine
end

section
/-! A command in progress with no text left to read can be brought to its end by display work (41_display_driver.md R77 to
R80): whatever it waits for ends, then its items are sent one by one. -/

namespace Sys2Proof.Machine

/-! ### What display work keeps -/

/-- A step of display work leaves the schedule, the edge counter and BUSTO alone. -/
theorem displayStep_keeps {e : Event} {s t : State} (he : e.isDisplayWork = true) (h : eventStep e s = .next t) :
    t.events = s.events ∧ t.dec = s.dec ∧ t.status.busto = s.status.busto := by
  cases e with
  | dpe =>
    cases h
    obtain ⟨-, -, hdec, -, -, -, hev, -⟩ := dpeStep_frame s
    refine ⟨hev, hdec, ?_⟩
    rcases dpeStep_status s with hst | ⟨hst, -, -⟩ <;> rw [hst]
  | bus r =>
    cases h
    obtain rfl : r = .ok := of_decide_eq_true he
    obtain ⟨-, -, hdec, -, -, -, hev, -⟩ := busReturn_frame .ok s
    refine ⟨hev, hdec, ?_⟩
    rcases busReturn_cases .ok s with hb | ⟨_, _, -, -, hb⟩ <;> rw [hb]
    rfl
  | tick n => cases h; exact ⟨rfl, rfl, rfl⟩
  | host | issue op | store a b | dec | edge | reset => cases he

theorem DisplayWork.keeps {s t : State} (h : DisplayWork s t) :
    t.events = s.events ∧ t.dec = s.dec ∧ t.status.busto = s.status.busto := by
  induction h with
  | refl s => exact ⟨rfl, rfl, rfl⟩
  | head e he hstep _ ih =>
    obtain ⟨hev, hdec, hbusto⟩ := displayStep_keeps he hstep
    obtain ⟨hev', hdec', hbusto'⟩ := ih
    exact ⟨hev'.trans hev, hdec'.trans hdec, hbusto'.trans hbusto⟩

/-! ### Gaps -/

theorem cmdItem_gap_le (b : Byte) : (cmdItem b).gap ≤ 50 := by
  simp only [cmdItem, cmdGap]
  split <;> decide

theorem dataItem_gap_le (b : Byte) : (dataItem b).gap ≤ 50 := by simp [dataItem, Config.settleMs]

/-- No command has an item with a gap above INIT's 50 ms (41_display_driver.md R74, R82). -/
theorem commandItems_gap_le (i : Instr) (arg : Word) : ∀ it ∈ commandItems i arg, it.gap ≤ 50 := by
  cases i with
  | init => exact (by decide : ∀ it ∈ initItems, it.gap ≤ 50)
  | clear => exact (by decide : ∀ it ∈ clearItems, it.gap ≤ 50)
  | setcur row col => exact List.forall_mem_singleton.mpr (cmdItem_gap_le _)
  | sendcmd b => exact List.forall_mem_singleton.mpr (cmdItem_gap_le b)
  | senddata b => exact List.forall_mem_singleton.mpr (dataItem_gap_le b)
  | wtext => exact nofun
  | wint base =>
    simp only [commandItems]
    split
    · exact List.forall_mem_map.mpr fun b _ => dataItem_gap_le b
    · exact nofun

/-- What a command may send, a text read from host memory included, has no longer gap. -/
theorem gap_le_of_commandSends {i : Instr} {arg : Word} {items : List Item} (h : CommandSends i arg items) :
    ∀ it ∈ items, it.gap ≤ 50 := by
  intro it hit
  cases i with
  | wtext =>
    obtain ⟨hdata, -⟩ : it.isText := h it hit
    exact hdata ▸ dataItem_gap_le it.byte
  | init | clear | setcur row col | sendcmd b | senddata b | wint base =>
    exact commandItems_gap_le _ arg it (h ▸ hit)

/-- The gaps of the command in progress, of items sent or not, are such gaps. -/
theorem State.Inv.gap_le {s : State} (hs : s.Inv) (hp : s.dpe.phase ≠ .idle) :
    ∀ it ∈ sentSince s.log ++ s.dpe.unsent, it.gap ≤ 50 := by
  obtain ⟨i, c, hlast, -⟩ := hs.current hp
  exact gap_le_of_commandSends (hs.progress i _ c hlast)

/-! ### The way to the end -/

/-- In ISSUE with no text, the items can be sent one by one, and then the command ends. -/
theorem displayWork_items {q : List Item} {s : State} (hp : s.dpe.phase = .issue) (hq : s.dpe.q = q)
    (ht : s.dpe.txt = none) (hgap : ∀ it ∈ q, it.gap ≤ 50) :
    ∃ t, DisplayWork s t ∧ t.dpe.phase = .idle ∧ sentSince t.log = sentSince s.log ++ q := by
  induction q generalizing s with
  | nil => exact ⟨complete s, .dpe (dpeStep_complete hp hq ht), rfl, (List.append_nil _).symm⟩
  | cons it q ih =>
    obtain ⟨hit, hrest⟩ := List.forall_mem_cons.mp hgap
    obtain ⟨u, hwork, hp', hq', ht', hsent⟩ := displayWork_item hp hq (by omega)
    obtain ⟨t, hwork', hidle, hsent'⟩ := ih hp' hq' (ht'.trans ht) hrest
    exact ⟨t, hwork.trans hwork', hidle, by simp [hsent', hsent]⟩

/-- The end of a wait of at most 50 ms is ISSUE, with the items, the text pointer and the observation as they were. -/
theorem displayWork_endWait {s : State} (hp : s.dpe.phase = .prewait ∨ s.dpe.phase = .wait) (hd : s.dpe.dcur ≤ 50) :
    ∃ t, DisplayWork s t ∧ t.dpe.phase = .issue ∧ t.dpe.q = s.dpe.q ∧ t.dpe.txt = s.dpe.txt ∧ t.log = s.log := by
  obtain ⟨n, hwork⟩ := displayWork_wait hp (by omega)
  exact ⟨_, hwork, rfl, rfl, rfl, rfl⟩

/-- A command in progress can be brought to ISSUE, with nothing sent meanwhile: the transaction in flight returns, and the
wait in progress ends. -/
theorem State.Inv.displayWork_toIssue {s : State} (hs : s.Inv) (hp : s.dpe.phase ≠ .idle) :
    ∃ t, DisplayWork s t ∧ t.dpe.phase = .issue ∧ t.dpe.q = s.dpe.unsent ∧ t.dpe.txt = s.dpe.txt ∧
      sentSince t.log = sentSince s.log := by
  have hgap := hs.gap_le hp
  cases hphase : s.dpe.phase with
  | idle => exact absurd hphase hp
  | issue => exact ⟨s, .refl s, hphase, (unsent_eq_q (by simp [hphase])).symm, rfl, rfl⟩
  | prewait =>
    obtain ⟨_, _, _, -, -, hd, -⟩ := (phaseOk_prewait hphase).mp hs.phase
    obtain ⟨t, hwork, hp', hq', ht', hlog⟩ := displayWork_endWait (.inl hphase) (Nat.le_of_eq hd)
    exact ⟨t, hwork, hp', hq'.trans (unsent_eq_q (by simp [hphase])).symm, ht', by rw [hlog]⟩
  | wait =>
    obtain ⟨tx, older, _, _, hlog, -, -, hd, -⟩ := (phaseOk_wait hphase).mp hs.phase
    have hdcur : s.dpe.dcur ≤ 50 := by
      rw [hd]
      exact hgap _ (by simp [hlog])
    obtain ⟨t, hwork, hp', hq', ht', hlog'⟩ := displayWork_endWait (.inr hphase) hdcur
    exact ⟨t, hwork, hp', hq'.trans (unsent_eq_q (by simp [hphase])).symm, ht', by rw [hlog']⟩
  | xfer =>
    obtain ⟨tx, older, hlog, -, hhead, -, -⟩ := (phaseOk_xfer hphase).mp hs.phase
    obtain ⟨rest, hq⟩ := List.head?_eq_some_iff.mp hhead
    have hret := busReturn_xfer hphase hq .ok
    have hdcur : tx.item.gap ≤ 50 := hgap _ (by simp [hlog])
    obtain ⟨t, hwork, hp', hq', ht', hlog'⟩ := displayWork_endWait (s := busReturn .ok s) (.inr (by rw [hret]))
      (by rw [hret]; exact hdcur)
    refine ⟨t, (DisplayWork.bus s).trans hwork, hp', ?_, ?_, ?_⟩
    · rw [hq', hret, unsent_xfer hphase, hq, List.tail_cons]
    · rw [ht', hret]
    · simp [hlog', hret, hlog]

/-- Settles O59: to ISSUE, then item by item to the end. -/
theorem commandInProgressCanComplete : Obligations.CommandInProgressCanComplete := by
  intro s hs hp ht
  obtain ⟨u, hwork, hp', hq', ht', hsent⟩ := hs.displayWork_toIssue hp
  obtain ⟨t, hwork', hidle, hsent'⟩ := displayWork_items hp' hq' (ht'.trans ht)
    fun it hit => hs.gap_le hp it (List.mem_append_right _ hit)
  have hall := hwork.trans hwork'
  obtain ⟨es, hes, hrun⟩ := hall.core_run
  exact ⟨es, t, hes, hrun, hidle, by rw [hsent', hsent], hall.keeps⟩

end Sys2Proof.Machine
end

section
/-! The edge counter (42_edge_counter.md R91 to R98): its increment, its two steps, and what each agent's step does to it. -/

namespace Sys2Proof.Machine

/-! ### The increment -/

/-- 0x7FFFFFFF is the one greatest COUNT. -/
theorem ne_top_iff {c : Word} : c ≠ 0x7FFFFFFF ↔ c.toInt < 2147483647 := by
  have hlt := BitVec.toInt_lt (x := c)
  have htop : (0x7FFFFFFF : Word).toInt = 2147483647 := rfl
  rw [← BitVec.toInt_ne, htop]
  omega

theorem incCount_of_ne_top {c : Word} (h : c ≠ 0x7FFFFFFF) (ovf : CntOvf) : incCount ovf c = c + 1 := if_neg h

theorem toInt_incCount_of_ne_top {c : Word} (h : c ≠ 0x7FFFFFFF) (ovf : CntOvf) :
    (incCount ovf c).toInt = c.toInt + 1 := by
  have hlt := ne_top_iff.mp h
  have hge := BitVec.le_toInt c
  have hone : (1 : Word).toInt = 1 := rfl
  rw [incCount_of_ne_top h, BitVec.toInt_add, hone]
  exact Int.bmod_eq_of_le (by omega) (by omega)

@[simp] theorem incCount_wrap_top : incCount .wrap 0x7FFFFFFF = 0x80000000 := rfl

@[simp] theorem incCount_saturate_top : incCount .saturate 0x7FFFFFFF = 0x7FFFFFFF := rfl

/-- Settles O31: below 0x7FFFFFFF the increment is plus one, without a wrap of the signed value. -/
theorem incrementFollowsOverflowChoice : Obligations.IncrementFollowsOverflowChoice := by
  refine ⟨fun ovf c h => ?_, incCount_wrap_top, incCount_saturate_top⟩
  have hne := ne_top_iff.mpr h
  exact ⟨incCount_of_ne_top hne ovf, toInt_incCount_of_ne_top hne ovf⟩

/-! ### The two steps -/

section
variable {d : Dec} {t : Word}

/-- An evaluation more than 40 ticks after the one before it counts (42_edge_counter.md R93). -/
theorem evaluate_late (h : 40 < (t - d.lastts).toNat) (ovf : CntOvf) :
    d.evaluate ovf t = { pend := false, count := incCount ovf d.count, lastts := t } := by
  rw [Dec.evaluate, if_pos (show ticksSince t d.lastts > Config.debounceMs from h)]

/-- An earlier one only takes the tick (42_edge_counter.md R95). -/
theorem evaluate_early (h : (t - d.lastts).toNat ≤ 40) (ovf : CntOvf) :
    d.evaluate ovf t = { pend := false, count := d.count, lastts := t } := by
  rw [Dec.evaluate, if_neg (show ¬ ticksSince t d.lastts > Config.debounceMs from Nat.not_lt_of_ge h)]

theorem evaluate_count (ovf : CntOvf) (d : Dec) (t : Word) :
    (d.evaluate ovf t).count = d.count ∨ (d.evaluate ovf t).count = incCount ovf d.count := by
  rcases Nat.lt_or_ge 40 (t - d.lastts).toNat with h | h
  · exact .inr (by rw [evaluate_late h])
  · exact .inl (by rw [evaluate_early h])

end

theorem decStep_pending {s : State} (hp : s.dec.pend = true) :
    decStep s = { s with dec := s.dec.evaluate s.params.cntOvf s.now } := if_pos hp

/-- Settles O29: the step is the edge step, on the state without the event. -/
theorem edgeSetsPend : Obligations.EdgeSetsPend := by
  intro s he
  rw [step_eq he, eventStep, edgeStep, takeEvent_dec]

/-- Settles O30: with a pending edge the step is the evaluation, late or early. -/
theorem evaluationCountsAfterTheWindow : Obligations.EvaluationCountsAfterTheWindow := by
  intro s he
  have hstep : s.dec.pend = true →
      step s = .next { s.takeEvent with dec := s.dec.evaluate s.params.cntOvf s.now } := by
    intro hp
    rw [step_eq he, eventStep, decStep_pending (by simpa using hp)]
    simp only [takeEvent_dec, takeEvent_params, takeEvent_now]
  exact ⟨fun hp hlate => by rw [hstep hp, evaluate_late hlate],
    fun hp hearly => by rw [hstep hp, evaluate_early hearly]⟩

/-! ### What each agent's step does to the counter -/

/-- The edge counter after the event `e` at tick `t`: only an evaluation, an edge and a reset write it
(42_edge_counter.md R91 to R93, R98). -/
def Dec.after (ovf : CntOvf) (t : Word) (d : Dec) : Event → Dec
  | .dec   => if d.pend then d.evaluate ovf t else d
  | .edge  => { d with pend := true }
  | .reset => Dec.reset
  | _      => d

theorem after_dec_pending {d : Dec} (hp : d.pend = true) (ovf : CntOvf) (t : Word) :
    d.after ovf t .dec = d.evaluate ovf t := if_pos hp

theorem after_dec_idle {d : Dec} (hp : d.pend = false) (ovf : CntOvf) (t : Word) : d.after ovf t .dec = d :=
  if_neg (ne_true_of_eq_false hp)

/-- The ticks that pass in the event's step (10_state.md R29). -/
def Event.ticks : Event → Nat
  | .tick n => n
  | _       => 0

/-- The counter, the tick and the schedule after an agent's step: nothing else the state holds is read for them. -/
theorem eventStep_counter {e : Event} {s t : State} (h : eventStep e s = .next t) :
    t.dec = s.dec.after s.params.cntOvf s.now e ∧ t.clock = s.clock + e.ticks ∧
    t.events = s.events ∧ t.draws = s.draws := by
  cases e with
  | host =>
    obtain ⟨-, hd, -, hc, hev, hdr⟩ := hostStep_frame h
    exact ⟨hd, hc, hev, hdr⟩
  | dpe =>
    cases h
    obtain ⟨-, -, hd, -, -, hc, hev, hdr⟩ := dpeStep_frame s
    exact ⟨hd, hc, hev, hdr⟩
  | bus r =>
    cases h
    obtain ⟨-, -, hd, -, -, hc, hev, hdr⟩ := busReturn_frame r s
    exact ⟨hd, hc, hev, hdr⟩
  | dec =>
    cases h
    obtain ⟨-, -, -, -, -, -, hc, -, hev, hdr⟩ := decStep_frame s
    refine ⟨?_, hc, hev, hdr⟩
    rcases decStep_cases s with ⟨hp, hs⟩ | ⟨hp, hs⟩
    · rw [hs, after_dec_idle hp]
    · rw [hs, after_dec_pending hp]
  | issue op | store a b | edge | tick n | reset => cases h; exact ⟨rfl, rfl, rfl, rfl⟩

/-- The same of a step of the machine. -/
theorem step_counter {s t : State} (h : step s = .next t) :
    t.dec = s.dec.after s.params.cntOvf s.now s.nextEvent ∧ t.clock = s.clock + s.nextEvent.ticks ∧
    t.events = s.takeEvent.events ∧ t.draws = s.takeEvent.draws := by
  simpa using eventStep_counter ((step_eq rfl).symm.trans h)

/-- But for a reset, COUNT stays, or goes up in an evaluation with a pending edge. -/
theorem step_count {s t : State} (h : step s = .next t) (hr : s.nextEvent ≠ .reset) :
    t.dec.count = s.dec.count ∨
    (s.nextEvent = .dec ∧ s.dec.pend = true ∧ t.dec.count = incCount s.params.cntOvf s.dec.count) := by
  obtain ⟨hd, -⟩ := step_counter h
  rw [hd]
  cases he : s.nextEvent with
  | dec =>
    cases hp : s.dec.pend with
    | false => exact .inl (by rw [after_dec_idle hp])
    | true =>
      rw [after_dec_pending hp]
      exact (evaluate_count _ _ _).imp_right fun hc => ⟨rfl, rfl, hc⟩
  | reset => exact absurd he hr
  | host | issue op | store a b | dpe | edge | tick n | bus r => exact .inl rfl

/-- Settles O32: COUNT stays or goes up, and only at 0x7FFFFFFF is that not plus one. -/
theorem countIsMonotonic : Obligations.CountIsMonotonic := by
  intro s t h hr
  rcases step_count h hr with hc | ⟨he, hp, hc⟩
  · rw [hc]
    exact ⟨fun hne => absurd rfl hne, by omega, fun _ => Int.le_refl _, fun _ htop => .inl htop⟩
  · rw [hc]
    refine ⟨fun _ => ⟨he, hp⟩, ?_⟩
    by_cases htop : s.dec.count = 0x7FFFFFFF
    · rw [htop]
      cases s.params.cntOvf <;> decide
    · rw [toInt_incCount_of_ne_top htop]
      exact ⟨Int.le_refl _, fun _ => by omega, fun _ h => absurd h htop⟩

/-- The next event, and what is left of the schedule without it, are a matter of the schedule only. -/
theorem schedule_congr {s s' : State} (hev : s.events = s'.events) (hdr : s.draws = s'.draws) :
    s.nextEvent = s'.nextEvent ∧ s.takeEvent.events = s'.takeEvent.events ∧ s.takeEvent.draws = s'.takeEvent.draws := by
  cases hs : s.events with
  | nil =>
    obtain ⟨hn, ht⟩ := takeEvent_of_nil s hs
    obtain ⟨hn', ht'⟩ := takeEvent_of_nil s' (hev.symm.trans hs)
    rw [hn, hn', ht, ht', hdr]
    exact ⟨rfl, hev, rfl⟩
  | cons e es =>
    obtain ⟨hn, ht⟩ := takeEvent_of_cons s e es hs
    obtain ⟨hn', ht'⟩ := takeEvent_of_cons s' e es (hev.symm.trans hs)
    rw [hn, hn', ht, ht']
    exact ⟨rfl, rfl, hdr⟩

/-- Settles O35: the two machines take the same event, and what it does to the counter and the tick is read from what they
share. -/
theorem counterSeesOnlyEdgesAndTicks : Obligations.CounterSeesOnlyEdgesAndTicks := by
  intro s s' t t' hdec hclock hovf hev hdr h h'
  obtain ⟨hne, htev, htdr⟩ := schedule_congr hev hdr
  have hnow : s.now = s'.now := congrArg (BitVec.ofNat 32) hclock
  obtain ⟨hd, hc, he, hr⟩ := step_counter h
  obtain ⟨hd', hc', he', hr'⟩ := step_counter h'
  rw [hd, hc, he, hr, hd', hc', he', hr', hdec, hclock, hovf, hnow, hne]
  exact ⟨rfl, rfl, htev, htdr⟩

end Sys2Proof.Machine
end

section
/-! A bounce train (42_edge_counter.md R96): each pass of an edge and its evaluation only moves the last evaluation's tick. -/

namespace Sys2Proof.Machine

/-- The state after an edge evaluated `gap` ticks after the evaluation before it, too early to count. -/
def State.bounced (s : State) (gap : Nat) : State :=
  { advance s gap with dec := { pend := false, count := s.dec.count, lastts := (advance s gap).now } }

theorem advance_now_sub (s : State) (n : Nat) : ((advance s n).now - s.now).toNat = n % 2 ^ 32 := by
  simp only [State.now, advance_clock, BitVec.toNat_sub, BitVec.toNat_ofNat]
  omega

/-- The three steps of a pass lead to `bounced`. -/
theorem decStep_edgeStep_advance {s : State} {gap : Nat} (hnow : s.now = s.dec.lastts) (hgap : gap ≤ 40) :
    decStep (edgeStep (advance s gap)) = s.bounced gap := by
  have hearly : ((edgeStep (advance s gap)).now - (edgeStep (advance s gap)).dec.lastts).toNat ≤ 40 := by
    have hsub := advance_now_sub s gap
    rw [hnow] at hsub
    exact Nat.le_trans (Nat.le_of_eq hsub) (Nat.le_trans (Nat.mod_le _ _) hgap)
  rw [decStep_pending (by simp), evaluate_early hearly]
  rfl

/-- The run of a train starts with its first pass. -/
theorem run_edgeTrain_cons {s : State} {gap : Nat} (gaps : List Nat) (hnow : s.now = s.dec.lastts) (hgap : gap ≤ 40) :
    Sys2Proof.core.run (edgeTrain (gap :: gaps)).length (s.scheduled (edgeTrain (gap :: gaps))) =
      Sys2Proof.core.run (edgeTrain gaps).length ((s.bounced gap).scheduled (edgeTrain gaps)) := by
  have htick : eventStep (.tick gap) s = .next (advance s gap) := rfl
  have hedge : eventStep .edge (advance s gap) = .next (edgeStep (advance s gap)) := rfl
  have hdec : eventStep .dec (edgeStep (advance s gap)) = .next (s.bounced gap) :=
    congrArg _ (decStep_edgeStep_advance hnow hgap)
  exact (run_scheduled_cons (eventStep_scheduled (.edge :: .dec :: edgeTrain gaps) htick)).trans
    ((run_scheduled_cons (eventStep_scheduled (.dec :: edgeTrain gaps) hedge)).trans
      (run_scheduled_cons (eventStep_scheduled (edgeTrain gaps) hdec)))

/-- Settles O33, by induction on the gaps of the train. -/
theorem bounceTrainNeverCounts : Obligations.BounceTrainNeverCounts := by
  intro s gaps
  induction gaps generalizing s with
  | nil => exact fun hnow _ => ⟨s, rfl, rfl, rfl, hnow.symm, rfl⟩
  | cons gap gaps ih =>
    intro hnow hgaps
    obtain ⟨hgap, hgaps⟩ := List.forall_mem_cons.mp hgaps
    obtain ⟨t, hrun, hcount, hclock, hlast, hdpe⟩ := ih (s.bounced gap) rfl hgaps
    refine ⟨t, (run_edgeTrain_cons gaps hnow hgap).trans hrun, hcount, ?_, hlast, hdpe⟩
    calc t.clock = s.clock + gap + gaps.sum := hclock
      _ = s.clock + (gap :: gaps).sum := by rw [List.sum_cons, Nat.add_assoc]

end Sys2Proof.Machine
end

section
/-! The edge counter and the sequencer do not meet (42_edge_counter.md R100): a step of the one commutes with any change of
the other's state. -/

namespace Sys2Proof.Machine

theorem waitStep_withDec (s : State) (d : Dec) : waitStep { s with dec := d } = { waitStep s with dec := d } := by
  rcases Nat.lt_or_ge (s.now - s.dpe.t0).toNat (s.dpe.dcur + 1) with h | h
  · rw [waitStep_early h, waitStep_early (s := { s with dec := d }) h]
  · rw [waitStep_over h, waitStep_over (s := { s with dec := d }) h]

theorem textStep_withDec (s : State) (a : Word) (d : Dec) :
    textStep a { s with dec := d } = { textStep a s with dec := d } := by
  cases hm : memRead s a with
  | none => rw [textStep_unadmitted hm, textStep_unadmitted (s := { s with dec := d }) hm]
  | some c =>
    by_cases hc : c = 0
    · subst hc
      rw [textStep_terminator hm, textStep_terminator (s := { s with dec := d }) hm]
    · rw [textStep_byte hm hc, textStep_byte (s := { s with dec := d }) hm hc]

theorem dpeStep_withDec (s : State) (d : Dec) : dpeStep { s with dec := d } = { dpeStep s with dec := d } := by
  have hdisabled (hp : s.dpe.phase = .idle ∨ s.dpe.phase = .xfer) :
      dpeStep { s with dec := d } = { dpeStep s with dec := d } := by
    rw [dpeStep_disabled hp, dpeStep_disabled (s := { s with dec := d }) hp]
  have hwait (hp : s.dpe.phase = .prewait ∨ s.dpe.phase = .wait) :
      dpeStep { s with dec := d } = { dpeStep s with dec := d } := by
    rw [dpeStep_wait hp, dpeStep_wait (s := { s with dec := d }) hp, waitStep_withDec]
  cases hp : s.dpe.phase with
  | idle => exact hdisabled (.inl hp)
  | xfer => exact hdisabled (.inr hp)
  | prewait => exact hwait (.inl hp)
  | wait => exact hwait (.inr hp)
  | issue =>
    cases hq : s.dpe.q with
    | cons it rest =>
      rw [dpeStep_item hp hq, dpeStep_item (s := { s with dec := d }) hp hq]
      rfl
    | nil =>
      cases ht : s.dpe.txt with
      | none =>
        rw [dpeStep_complete hp hq ht, dpeStep_complete (s := { s with dec := d }) hp hq ht]
        rfl
      | some a => rw [dpeStep_text hp hq ht, dpeStep_text (s := { s with dec := d }) hp hq ht, textStep_withDec]

theorem busReturn_withDec (r : BusResult) (s : State) (d : Dec) :
    busReturn r { s with dec := d } = { busReturn r s with dec := d } := by
  by_cases hp : s.dpe.phase = .xfer
  · cases hq : s.dpe.q with
    | nil => simp only [busReturn, hp, hq]
    | cons it rest =>
      rw [busReturn_xfer hp hq, busReturn_xfer (s := { s with dec := d }) hp hq]
      rfl
  · rw [busReturn_ignored hp, busReturn_ignored (s := { s with dec := d }) hp]

theorem decStep_withDpe (s : State) (p : Dpe) (st : Status) :
    decStep { s with dpe := p, status := st } = { decStep s with dpe := p, status := st } := by
  cases hp : s.dec.pend with
  | false => rw [decStep_disabled hp, decStep_disabled (s := { s with dpe := p, status := st }) hp]
  | true =>
    rw [decStep_pending hp, decStep_pending (s := { s with dpe := p, status := st }) hp]
    rfl

/-- Settles O34: unit by unit. -/
theorem unitsAreIndependent : Obligations.UnitsAreIndependent := fun s d p st =>
  ⟨dpeStep_withDec s d, fun r => busReturn_withDec r s d, decStep_withDpe s p st, rfl⟩

end Sys2Proof.Machine
end

section
/-! The host interface (43_host_interface.md R101 to R108): what a read of each slot answers, what a write of each slot but
CMD does, and that only a write of CMD reaches the sequencer. -/

namespace Sys2Proof.Machine

/-! ### Which slot a number names -/

/-- The slots 5 to 7 are reserved (10_state.md R12). -/
theorem slotAt_reserved {k : BitVec 3} (h : 5 ≤ k.toNat) : slotAt k = .reserved := by
  revert k
  decide

/-- From slot 3 on no slot can be written (43_host_interface.md R105). -/
theorem slotAt_readOnly {k : BitVec 3} (h : 3 ≤ k.toNat) :
    slotAt k = .count ∨ slotAt k = .edge ∨ slotAt k = .reserved := by
  revert k
  decide

/-! ### Reads -/

/-- A 32-bit read of a slot gives the host the slot's word and changes nothing else (43_host_interface.md R101). -/
theorem step_readSlot {s : State} {k : BitVec 3} {ops : List HostOp} (he : s.nextEvent = .host)
    (hp : s.host.prog = .read (s.params.offsetOf (s.params.slotAddr k)) .word :: ops) :
    step s = .next (answer (s.popped ops) (some (readSlot s (slotAt k)))) := by
  rw [step_host he hp]
  simp only [runHostOp, hostRead, offsetOf_slotAddr, target_slotOffset, readSlot_popped]

/-- Settles O37: the host gets `readSlot`'s word, whose table has one row per slot number. -/
theorem readsAnswerTheTable : Obligations.ReadsAnswerTheTable := by
  intro s k ops he hprog
  have hreserved (hk : 5 ≤ k.toNat) : readSlot s (slotAt k) = 0 := by rw [slotAt_reserved hk, readSlot]
  refine ⟨readSlot s (slotAt k), step_readSlot he hprog, ?_, ?_, ?_, ?_, ?_, hreserved⟩
  all_goals rintro rfl; rfl

/-! ### Writes of the slots other than CMD -/

/-- Write-1-to-clear, flag by flag: a 1 clears, a 0 leaves (43_host_interface.md R104). -/
theorem writeOneToClear_eq (st : Status) (v : Word) : st.writeOneToClear v = { st with
    busto   := if v.getLsbD 3 = true then false else st.busto
    cmdovr  := if v.getLsbD 4 = true then false else st.cmdovr
    cmderr  := if v.getLsbD 5 = true then false else st.cmderr
    errcode := if v.getLsbD 5 = true then 0 else st.errcode } := by
  have hclear (flag bit : Bool) : (flag && !bit) = if bit = true then false else flag := by cases bit <;> simp
  simp only [Status.writeOneToClear, hclear]

/-- Settles O39: slot 2 is STATUS, and its write is write-1-to-clear. -/
theorem statusWriteClearsStickyBits : Obligations.StatusWriteClearsStickyBits := by
  intro s v ops he hprog
  have hslot : slotAt 2 = .status := rfl
  rw [step_wr he hprog, hslot, writeSlot, clearErrors, writeOneToClear_eq, popped_status]

/-- Settles O40: slot 1 is ARG. -/
theorem argWriteStoresTheWord : Obligations.ArgWriteStoresTheWord := by
  intro s v ops he hprog
  have hslot : slotAt 1 = .arg := rfl
  rw [step_wr he hprog, hslot, writeSlot]

/-- Settles O41: COUNT, EDGE and the reserved slots each ignore the write. -/
theorem readOnlySlotsIgnoreWrites : Obligations.ReadOnlySlotsIgnoreWrites := by
  intro s k v ops he hprog hk
  rw [step_wr he hprog]
  rcases slotAt_readOnly hk with hslot | hslot | hslot <;> rw [hslot, writeSlot]

/-! ### The command in progress -/

/-- A host step leaves the sequencer, the observation and STATE alone, or is a write to CMD of an idle block: while a
command is in progress such a write only sets CMDOVR (43_host_interface.md R102, R108). -/
theorem hostStep_sequencer {s t : State} (h : hostStep s = .next t) :
    (t.dpe = s.dpe ∧ t.log = s.log ∧ t.status.state = s.status.state) ∨
    (s.dpe.phase = .idle ∧ ∃ v ops, s.writesNext .cmd v ops) := by
  rcases hostStep_cases h with ⟨hs, rfl⟩ | ⟨hs, v, ops, -, rfl⟩ | ⟨hs, v, ops, -, rfl⟩ | ⟨w, ops, hcmd, hw⟩
  · exact .inl ⟨rfl, rfl, rfl⟩
  · exact .inl ⟨rfl, rfl, rfl⟩
  · exact .inl ⟨rfl, rfl, rfl⟩
  · rcases writeCmd_cases hw with ⟨-, rfl⟩ | ⟨hp, -⟩ | ⟨hp, -⟩ | ⟨hp, -⟩
    · exact .inl ⟨rfl, rfl, rfl⟩
    all_goals exact .inr ⟨hp, w, ops, hcmd⟩

/-- Settles O43: the frame of every host step, and `hostStep_sequencer` for the command in progress. -/
theorem hostCannotDisturbACommand : Obligations.HostCannotDisturbACommand := by
  intro s t he hstep
  rw [step_eq he, eventStep] at hstep
  obtain ⟨hparams, hdec, hmem, hclock, -⟩ := hostStep_frame hstep
  have hseq := hostStep_sequencer hstep
  simp only [takeEvent_params, takeEvent_dec, takeEvent_mem, takeEvent_clock] at hparams hdec hmem hclock
  simp only [takeEvent_dpe, takeEvent_log, takeEvent_status, takeEvent_writesNext] at hseq
  refine ⟨hdec, hclock, hmem, hparams, fun hbusy => ?_, fun hchanged => ?_⟩
  · exact hseq.resolve_right fun ⟨hidle, _⟩ => hbusy hidle
  · exact hseq.resolve_left fun ⟨hdpe, hlog, _⟩ => hchanged.elim (· hdpe) (· hlog)

end Sys2Proof.Machine
end

section
/-! What the block does in place of an exception (60_exceptions.md R112, R115): a command that comes while BUSY = 1 is recorded
as an overrun, and no step stops. -/

namespace Sys2Proof.Machine

/-! ### A command while BUSY = 1 -/

section
variable {s : State} (hp : s.dpe.phase ≠ .idle)
include hp

/-- A busy sequencer takes no command: the offer is recorded as an overrun (41_display_driver.md R76). -/
theorem offer_of_busy (take : State → State) : offer take s = .next (overrun s) := by
  rw [offer, if_pos ((busy_iff _).mpr hp)]

/-- Every command is an offer, so while BUSY = 1 each of them only overruns. -/
theorem exec_of_busy (i : Instr) : exec i s = .next (overrun s) := by
  cases i with
  | init | clear | setcur | sendcmd | senddata | wtext => exact offer_of_busy hp _
  | wint base => rw [exec, execWint, offer_of_busy hp]

/-- While BUSY = 1 a word written to CMD is not decoded, so rejected words overrun too (60_exceptions.md R115). -/
theorem writeCmd_of_busy (w : Word) : writeCmd w s = .next (overrun s) := by
  rw [writeCmd, if_pos ((busy_iff _).mpr hp)]

end

/-- Settles O5: the CMD write and the command both overrun, and `overrun` sets CMDOVR alone. -/
theorem busyCmdWriteOnlySetsOverrun : Obligations.BusyCmdWriteOnlySetsOverrun :=
  fun _ hp => ⟨writeCmd_of_busy hp, exec_of_busy hp⟩

/-! ### No step stops -/

/-- Settles O50: the host's step answers a next state whatever its operation meets (`hostStep_next`), every other agent's
step by definition; `step_next` joins them. -/
theorem stepNeverStops : Obligations.StepNeverStops := step_next

end Sys2Proof.Machine
end

section
/-! What a reset makes of the block (70_reset_and_hazards.md R131), and the ticks a command has taken by the time it is over
(R143). -/

namespace Sys2Proof.Machine

/-! ### Reset -/

/-- After a reset the window reads as it does at the start: no slot shows anything but the block's own state. -/
theorem readSlot_resetBlock (s : State) (k : Slot) : readSlot (resetBlock s) k = readSlot State.reset k := rfl

/-- Settles O47: `resetBlock` writes the values of 10_state.md R31, and the slots read 0 as at the start. -/
theorem resetSetsTheBlock : Obligations.ResetSetsTheBlock := by
  intro s h
  obtain ⟨-, -, -, -, hslots⟩ := startsInTheResetValues
  exact ⟨_, step_reset h, resetBlock_arg _, resetBlock_status _, resetBlock_dec _, resetBlock_dpe _,
    fun k => (readSlot_resetBlock _ _).trans (hslots k)⟩

/-! ### Waits -/

/-- One more item costs its gap and one tick (41_display_driver.md R75). -/
theorem leastWait_append_singleton (i : Instr) (items : List Item) (it : Item) :
    leastWait i (items ++ [it]) = leastWait i items + (it.gap + 1) := by
  simp [leastWait, Nat.add_assoc]

/-- A mark of an accept has rested once the waits of a command that has sent nothing are over. -/
theorem leastWait_le_of_restedAt_accepted {i : Instr} {arg : Word} {c k : Nat} {log : List Obs}
    (h : RestedAt (.accepted i arg c :: log) k) : c + leastWait i [] ≤ k := by
  obtain ⟨r, hr, hle⟩ := h
  have hwait : c + leastWait i [] = r := by
    cases hr
    simp only [leastWait, List.map_nil, List.sum_nil]
    split <;> rfl
  exact hwait ▸ hle

/-- An observation that has rested by `k` shows the waits of its last command, by induction on the observation: each
transaction starts after the waits before it and has rested only after its own (41_display_driver.md R90). -/
theorem leastWait_le_of_restedAt {bl : BitVec 1} {log : List Obs} {i : Instr} {arg : Word} {c k : Nat} (hok : LogOk bl log)
    (hrest : RestedAt log k) (hlast : lastAccepted log = some (i, arg, c)) : c + leastWait i (sentSince log) ≤ k := by
  induction log generalizing k with
  | nil => cases hlast
  | cons o log ih =>
    cases o with
    | accepted i' arg' c' =>
      cases hlast
      exact leastWait_le_of_restedAt_accepted hrest
    | tx t =>
      obtain ⟨hwell, hrest', hok'⟩ := hok
      obtain ⟨c', r, hret, hgap⟩ := restedAt_tx hrest
      have hbefore : c + leastWait i (sentSince log) ≤ t.start := ih hok' hrest' hlast
      have hreturn : t.start ≤ c' := hwell.order c' r hret
      rw [sentSince_tx, leastWait_append_singleton]
      omega
    | reset c' => cases hlast

section
variable {s : State} {i : Instr} {arg : Word} {c : Nat} (hs : s.Inv) (hp : s.dpe.phase = .idle)
  (hlast : lastAccepted s.log = some (i, arg, c))
include hs hp hlast

/-- An idle block has rested, so the waits of its last command are over. -/
theorem State.Inv.leastWait_le : c + leastWait i (sentSince s.log) ≤ s.clock := by
  obtain ⟨hrest, -, -, -⟩ := hs.idle hp
  exact leastWait_le_of_restedAt hs.log hrest hlast

/-- A command other than WTEXT that is over has sent exactly its items, so it has taken the waits of all of them. -/
theorem State.Inv.leastWait_commandItems_le (hi : i ≠ .wtext) : c + leastWait i (commandItems i arg) ≤ s.clock := by
  obtain ⟨-, -, hq, -⟩ := hs.idle hp
  have hsent : CommandSends i arg (sentSince s.log) := hs.sentAll (by simp [hp]) hq i arg c hlast
  have hitems : sentSince s.log = commandItems i arg := by
    cases i with
    | wtext => exact absurd rfl hi
    | init | clear | setcur row col | sendcmd b | senddata b | wint base => exact hsent
  exact hitems ▸ hs.leastWait_le hp hlast

end

/-- The row of INIT in the table of 70_reset_and_hazards.md R143. -/
theorem leastWait_init (arg : Word) : leastWait .init (commandItems .init arg) = 142 := rfl

/-- The row of CLEAR in the table of 70_reset_and_hazards.md R143. -/
theorem leastWait_clear (arg : Word) : leastWait .clear (commandItems .clear arg) = 3 := rfl

/-- Settles O58: an idle block has rested, and INIT and CLEAR have then taken the waits of their own items. -/
theorem commandsTakeTheirWaits : Obligations.CommandsTakeTheirWaits := by
  refine ⟨fun s i arg c hs hp hlast => hs.leastWait_le hp hlast, fun s arg c hs hp hlast => ?_,
    fun s arg c hs hp hlast => ?_⟩
  · exact leastWait_init arg ▸ hs.leastWait_commandItems_le hp hlast (by simp)
  · exact leastWait_clear arg ▸ hs.leastWait_commandItems_le hp hlast (by simp)

end Sys2Proof.Machine
end
